-- ==== Sys2Proof/Word.lean ====
section
/-! DEFINITION. Word types of the SPECK-CBC engine: a byte, a 32-bit register, a 64-bit block half and a byte offset
into the register window (00_scope.md R8, R9). -/

namespace Sys2Proof

/-- One byte of BUF, of the key or of the IV. -/
abbrev Byte := BitVec 8

/-- One bus register or command word (R8: REG_BITS 32). -/
abbrev Word32 := BitVec 32

/-- One half of a Speck block (R8: WORD_BITS 64). -/
abbrev Word64 := BitVec 64

/-- A byte offset into the 64 KiB register window (R8: OFFSET_BITS 16). -/
abbrev Offset := BitVec 16

end Sys2Proof
end

