-- ==== Sys2Proof/Config.lean ====
section
/-! DEFINITION. What one implementation of the engine fixes (00_scope.md R8), and the free values. -/

namespace Sys2Proof.Config

/-- The constant the ID register reads as (10_state.md R32; it spells "SPK1"). -/
def idValue : Word32 := 0x53504B31#32

/-- The default of the open parameter BUF_SIZE (R8). DESIGN CHOICE (log 3): `State.reset` describes the engine of this
size; statements about the machine are about every size. -/
def defaultBufSize : Word32 := 0x00001000#32

/-- R8: BUF_SIZE is a multiple of 16 with 512 <= BUF_SIZE <= 0xF000. -/
abbrev BufSizeLegal (size : Nat) : Prop := size % 16 = 0 ∧ 512 ≤ size ∧ size ≤ 0xF000

/-- FREE VALUE (70_reset_and_hazards.md R341, log 1): what byte `address` of BUF holds after reset number `epoch`, until
it is written. It has no body, so no proof can know a value of it. -/
opaque bufDraw (epoch address : Nat) : Byte

/-- FREE VALUE (R8, log 4): which 64 KiB page of the platform's address space the window stands in. -/
opaque enginePage : Nat

/-- ENGINE_BASE, 64 KiB aligned (R8, 20_memory.md R80). No rule depends on it. -/
def engineBase : Nat := 0x10000 * enginePage

/-- The platform address of a byte offset of the window (20_memory.md R80). -/
def platformAddress (offset : Offset) : Nat := engineBase + offset.toNat

end Sys2Proof.Config
end

