-- ==== Sys2Proof/Syntax.lean ====
section
/-! DEFINITION. The commands of the engine, one constructor for each row of spec/opcode_table.json (30_encoding.md
R113), and their mnemonics. -/

namespace Sys2Proof

/-- The thirteen commands of R113. A block length is the number written after `#` (R117). -/
inductive Instr
  /-- NOP (40_command_cycle.md R150) -/
  | nop
  /-- KEYEXP (41_speck.md R180) -/
  | keyexp
  /-- ENCB (41_speck.md R181) -/
  | encb
  /-- DECB (41_speck.md R182) -/
  | decb
  /-- PAD.PKCS7 #bl (42_padding.md R226) -/
  | padPkcs7 (bl : Nat)
  /-- PAD.X923 #bl (42_padding.md R227) -/
  | padX923 (bl : Nat)
  /-- UNPAD.PKCS7 #bl (42_padding.md R228) -/
  | unpadPkcs7 (bl : Nat)
  /-- UNPAD.X923 #bl (42_padding.md R229) -/
  | unpadX923 (bl : Nat)
  /-- CBCENC.PKCS7 (43_cbc.md R263) -/
  | cbcencPkcs7
  /-- CBCENC.X923 (43_cbc.md R264) -/
  | cbcencX923
  /-- CBCDEC.PKCS7 (43_cbc.md R265) -/
  | cbcdecPkcs7
  /-- CBCDEC.X923 (43_cbc.md R266) -/
  | cbcdecX923
  /-- KEYCLR (41_speck.md R183) -/
  | keyclr
  deriving DecidableEq, Repr

/-- The mnemonic of a command (R113). -/
def Instr.mnemonic : Instr → String
  | .nop => "NOP"
  | .keyexp => "KEYEXP"
  | .encb => "ENCB"
  | .decb => "DECB"
  | .padPkcs7 _ => "PAD.PKCS7"
  | .padX923 _ => "PAD.X923"
  | .unpadPkcs7 _ => "UNPAD.PKCS7"
  | .unpadX923 _ => "UNPAD.X923"
  | .cbcencPkcs7 => "CBCENC.PKCS7"
  | .cbcencX923 => "CBCENC.X923"
  | .cbcdecPkcs7 => "CBCDEC.PKCS7"
  | .cbcdecX923 => "CBCDEC.X923"
  | .keyclr => "KEYCLR"

end Sys2Proof
end

