-- ==== Sys2Proof/Machine/State.lean ====
section
/-! DEFINITION. The engine's state as plain data (10_state.md R30), the agents' events, the bus answers, and the state
right after reset (70_reset_and_hazards.md R340). -/

namespace Sys2Proof.Machine

/-- The error codes of STATUS.ERRCODE by name (60_exceptions.md R300). Codes 6 and 7 are never produced, so they have
no constructor. -/
inductive ErrCode
  /-- code 0: the command completed without error, or none has completed -/
  | noError
  /-- code 1, WCTL: the source's WrongCiphertextLength -/
  | wctl
  /-- code 2, WPAD: the source's WrongPadding -/
  | wpad
  /-- code 3, ILLEGAL -/
  | illegal
  /-- code 4, CONFIG -/
  | config
  /-- code 5, RANGE -/
  | range
  deriving DecidableEq, Repr

/-- Four 32-bit registers that together hold 16 bytes: KEY0..KEY3 (10_state.md R36) or IV0..IV3 (R37). -/
structure Words4 where
  w0 : Word32
  w1 : Word32
  w2 : Word32
  w3 : Word32
  deriving DecidableEq, Repr

/-- BUF (20_memory.md R82): the bytes written since the last reset, by buffer offset, addresses strictly rising. An
address it does not list holds no written value (70 R341, log 1, log 2). -/
abbrev Memory := List Host.Cell

/-- The pending-command latch PEND (10_state.md R46, 40_command_cycle.md R141). -/
structure Pending where
  word : Word32
  key : Words4
  iv : Words4
  addr : Word32
  len : Word32
  buf : Memory
  deriving DecidableEq, Repr

/-- One bus access of the host (20_memory.md R80, R81): its width in bits and its byte offset. Only a width of 32 at an
offset that is a multiple of 4 is served, and only there is a write's data used (log 13). -/
inductive BusAccess
  | read (width : Nat) (offset : Offset)
  | write (width : Nat) (offset : Offset) (data : Word32)
  deriving DecidableEq, Repr

/-- The engine's answer to a bus access (60_exceptions.md R303). -/
inductive BusResponse
  /-- a served read and the data it returns -/
  | readData (data : Word32)
  /-- a served write, performed, ignored or discarded -/
  | writeDone
  /-- a bus error on a read and the data it returns -/
  | readError (data : Word32)
  /-- a bus error on a write -/
  | writeError
  deriving DecidableEq, Repr

/-- A step's kind (00_scope.md R7). -/
inductive Event
  /-- the host performs a bus access -/
  | access (a : BusAccess)
  /-- the engine's turn: it completes the pending command, if there is one -/
  | engine
  /-- the reset input -/
  | reset
  deriving DecidableEq, Repr

/-- Everything the spec gives the engine (R30), and three fields of the model's own: `epoch`, `agenda`, `response`. The
register ID is hard-wired (`Config.idValue`), and IRQ is derived (`State.irq`). -/
structure State where
  /-- CMD, the last accepted command word (R33) -/
  cmd : Word32
  /-- STATUS.BUSY (R34) -/
  busy : Bool
  /-- STATUS.DONE (R34) -/
  done : Bool
  /-- STATUS.OVR (R34, 60 R304) -/
  ovr : Bool
  /-- STATUS.ERRCODE (R34, 60 R300) -/
  errcode : ErrCode
  /-- STATUS.KSV (R34, R45) -/
  ksv : Bool
  /-- INTEN.DONEIE (R35) -/
  doneie : Bool
  /-- KEY0..KEY3 (R36) -/
  key : Words4
  /-- IV0..IV3 (R37) -/
  iv : Words4
  /-- ADDR (R38) -/
  addr : Word32
  /-- LEN (R39) -/
  len : Word32
  /-- RLEN (R40) -/
  rlen : Word32
  /-- BUFSZ, which reads BUF_SIZE (R41, log 3) -/
  bufsz : Word32
  /-- BUF (20 R82) -/
  buf : Memory
  /-- RK[0..31] (R44) -/
  rk : Vector Word64 32
  /-- PEND, none while BUSY = 0 (R46, log 7) -/
  pend : Option Pending
  /-- the model's own: how many reset steps there have been, which picks BUF's draw (log 1) -/
  epoch : Nat
  /-- the model's own: the coming events, next first (log 5) -/
  agenda : List Event
  /-- the model's own: the answer to the last bus access (log 6) -/
  response : Option BusResponse
  deriving DecidableEq, Repr

/-- There is no fault: the engine does not trap (60_exceptions.md R307), a bus error is an answer on the bus (R303), and
nothing it does is stuck (93_implementation_defined.md: "every command completes"). -/
inductive Fault
  deriving DecidableEq, Repr

/-- Why a step has no meaning. -/
inductive Refusal
  /-- Raised by an arm of `exec` whose command has no meaning yet; safe. No arm raises it: every command has one. -/
  | notModelled (mnemonic : String)
  deriving DecidableEq, Repr

/-- Four registers at 0. -/
def Words4.zero : Words4 := ⟨0#32, 0#32, 0#32, 0#32⟩

/-- The round-key file with every entry 0 (10_state.md R44). -/
def zeroSchedule : Vector Word64 32 := ⟨⟨List.replicate 32 0#64⟩, rfl⟩

/-- The machine right after reset (R340): every register at its value in the table of 10_state.md R32, RK all 0, no
command pending, no byte of BUF written. -/
def State.reset : State where
  cmd := 0#32
  busy := false
  done := false
  ovr := false
  errcode := .noError
  ksv := false
  doneie := false
  key := Words4.zero
  iv := Words4.zero
  addr := 0#32
  len := 0#32
  rlen := 0#32
  bufsz := Config.defaultBufSize
  buf := []
  rk := zeroSchedule
  pend := none
  epoch := 0
  agenda := []
  response := none

end Sys2Proof.Machine
end

