-- ==== Sys2Proof/Machine/Bytes.lean ====
section
/-! DEFINITION. Byte sequences and words: the little-endian packing of 00_scope.md R11 and 20_memory.md R84, R85, and the
lane-wise XOR of a Block (40_command_cycle.md R147). -/

namespace Sys2Proof.Machine

/-- The number a byte sequence spells, first byte least significant (R11: the sum of `b[j] * 2^(8j)`). -/
def natOfBytes : List Byte → Nat
  | [] => 0
  | b :: bs => b.toNat + 256 * natOfBytes bs

/-- The `count` low bytes of a number, least significant first (R11). -/
def bytesOfNat : Nat → Nat → List Byte
  | 0, _ => []
  | count + 1, n => BitVec.ofNat 8 n :: bytesOfNat count (n / 256)

/-- `le32` (R11). -/
def le32 (b : List Byte) : Word32 := BitVec.ofNat 32 (natOfBytes b)

/-- `bytes_le32` (R11). -/
def bytesLe32 (w : Word32) : List Byte := bytesOfNat 4 w.toNat

/-- `le64` (R11). -/
def le64 (b : List Byte) : Word64 := BitVec.ofNat 64 (natOfBytes b)

/-- `bytes_le64` (R11). -/
def bytesLe64 (w : Word64) : List Byte := bytesOfNat 8 w.toNat

/-- The 16 bytes four registers hold, lane by lane (10_state.md R36, R37; 20_memory.md R84). -/
def Words4.bytes (q : Words4) : List Byte :=
  bytesLe32 q.w0 ++ bytesLe32 q.w1 ++ bytesLe32 q.w2 ++ bytesLe32 q.w3

/-- Register `i` of the four. -/
def Words4.get (q : Words4) : Fin 4 → Word32
  | 0 => q.w0
  | 1 => q.w1
  | 2 => q.w2
  | 3 => q.w3

/-- The four registers with register `i` written. -/
def Words4.set (q : Words4) (i : Fin 4) (d : Word32) : Words4 :=
  match i with
  | 0 => { q with w0 := d }
  | 1 => { q with w1 := d }
  | 2 => { q with w2 := d }
  | 3 => { q with w3 := d }

/-- `ToWords(b)`, the pair (x, y): y is the first eight bytes, x the last eight (20_memory.md R85). -/
def toWords (b : List Byte) : Word64 × Word64 := (le64 ((b.drop 8).take 8), le64 (b.take 8))

/-- `FromWords(x, y)`: y's bytes, then x's (20_memory.md R85). -/
def fromWords (xy : Word64 × Word64) : List Byte := bytesLe64 xy.2 ++ bytesLe64 xy.1

/-- `XorBlock(p, q)`, lane by lane (40_command_cycle.md R147). -/
def xorBlock (p q : List Byte) : List Byte := List.zipWith (fun a b => a ^^^ b) p q

end Sys2Proof.Machine
end

