-- ==== Sys2Proof/Machine/Ops.lean ====
section
/-! DEFINITION. The shared operations: BUF's bytes (20_memory.md R82, 00_scope.md R12), acceptance and completion of a
command (40_command_cycle.md R141, R143 to R145), and the reset step (70_reset_and_hazards.md R340). -/

namespace Sys2Proof.Machine

/-- The byte written at `a` since the last reset; none where nothing has been written. -/
def Memory.read : Memory → Nat → Option Byte
  | [], _ => none
  | (k, v) :: m, a => if k = a then some v else Memory.read m a

/-- The memory with byte `a` written, addresses still strictly rising. -/
def Memory.write : Memory → Nat → Byte → Memory
  | [], a, v => [(a, v)]
  | (k, w) :: m, a, v =>
    if a < k then (a, v) :: (k, w) :: m
    else if a = k then (a, v) :: m
    else (k, w) :: Memory.write m a v

/-- The memory with the bytes written from `a` upwards. -/
def Memory.writeBytes : Memory → Nat → List Byte → Memory
  | m, _, [] => m
  | m, a, b :: bs => Memory.writeBytes (Memory.write m a b) (a + 1) bs

/-- The canonical form: addresses strictly rising. (An unlisted address reads as no value, so no entry equals it.) -/
abbrev Memory.wf (m : Memory) : Prop := m.Pairwise (fun c d => c.1 < d.1)

/-- What a byte of BUF not written since reset reads as: its draw, the same at every read (70 R341, log 1). -/
def State.unwrittenByte (s : State) (a : Nat) : Byte := Config.bufDraw s.epoch a

/-- `BUF[a]` (20_memory.md R82). -/
def State.byteAt (s : State) (a : Nat) : Byte := (s.buf.read a).getD (s.unwrittenByte a)

/-- `MemRead(a, n)`, the bytes `BUF[a..a+n)` (00_scope.md R12). -/
def State.memRead (s : State) (a : Nat) : Nat → List Byte
  | 0 => []
  | n + 1 => s.byteAt a :: s.memRead (a + 1) n

/-- `MemWrite(a, n, v)` for the n bytes of `v` (00_scope.md R12). -/
def State.memWrite (s : State) (a : Nat) (v : List Byte) : State := { s with buf := s.buf.writeBytes a v }

/-- BUF_SIZE, which the register BUFSZ holds (10_state.md R41, log 3). -/
def State.bufSize (s : State) : Nat := s.bufsz.toNat

/-- PEND as acceptance of `w` fills it (40_command_cycle.md R141). -/
def State.pendingOf (s : State) (w : Word32) : Pending := ⟨w, s.key, s.iv, s.addr, s.len, s.buf⟩

/-- Acceptance of the command word `w` (40_command_cycle.md R141). -/
def State.accept (s : State) (w : Word32) : State :=
  { s with cmd := w, busy := true, done := false, errcode := .noError, pend := some (s.pendingOf w) }

/-- The fields every completion writes (40_command_cycle.md R143); PEND is empty while the engine is idle (log 7). -/
def State.complete (s : State) (code : ErrCode) (r : Nat) : State :=
  { s with rlen := BitVec.ofNat 32 r, errcode := code, busy := false, done := true, pend := none }

/-- `finish(r)` (R144). -/
def State.finish (s : State) (r : Nat) : State := s.complete .noError r

/-- `raise Error(code)`, the engine's one way of taking an error: RLEN 0, the code, and no other write (R145; 60 R307). -/
def State.raise (s : State) (code : ErrCode) : State := s.complete code 0

/-- The command word a completion decodes: x[CMD] (R143). -/
def State.commandWord (s : State) : Word32 := s.cmd

/-- The completion of an Illegal word (40_command_cycle.md R151). -/
def State.completeIllegal (s : State) : State := s.raise .illegal

/-- The reset step (70_reset_and_hazards.md R340): the reset values, for this engine's BUF_SIZE, with a new draw of BUF
(R341, log 1). The host's coming events stay (log 11). -/
def State.resetStep (s : State) : State :=
  { State.reset with bufsz := s.bufsz, epoch := s.epoch + 1, agenda := s.agenda }

end Sys2Proof.Machine
end

