-- ==== Sys2Proof/Machine/Flags.lean ====
section
/-! DEFINITION. STATUS, INTEN and the interrupt output as words and bits (10_state.md R34, R35, R43; 60_exceptions.md
R300, R305), and the host's acknowledgement (R308). No command sets an arithmetic flag (R48). -/

namespace Sys2Proof.Machine

/-- The number of an error code (60_exceptions.md R300). -/
def ErrCode.code : ErrCode → BitVec 3
  | .noError => 0#3
  | .wctl => 1#3
  | .wpad => 2#3
  | .illegal => 3#3
  | .config => 4#3
  | .range => 5#3

/-- One flag as a register bit 0. -/
def flagBit (b : Bool) : Word32 := if b then 1#32 else 0#32

/-- What a read of STATUS returns: `BUSY | DONE << 1 | OVR << 2 | ERRCODE << 4 | KSV << 8` (R34). -/
def State.statusWord (s : State) : Word32 :=
  flagBit s.busy ||| flagBit s.done <<< 1 ||| flagBit s.ovr <<< 2 ||| s.errcode.code.zeroExtend 32 <<< 4 |||
    flagBit s.ksv <<< 8

/-- A write of STATUS with data `w`: bits 1 and 2 clear DONE and OVR, every other bit is ignored (R34). With bit 1 it is
the host's acknowledgement of a completion or an error (60 R308). -/
def State.writeStatus (s : State) (w : Word32) : State :=
  { s with done := s.done && !w.getLsbD 1, ovr := s.ovr && !w.getLsbD 2 }

/-- What a read of INTEN returns: DONEIE in bit 0, 0 elsewhere (R35). -/
def State.intenWord (s : State) : Word32 := flagBit s.doneie

/-- A write of INTEN: bit 0 is stored, every other bit is ignored (R35). -/
def State.writeInten (s : State) (w : Word32) : State := { s with doneie := w.getLsbD 0 }

/-- The interrupt output, `IRQ = STATUS.DONE & INTEN.DONEIE` (R43). -/
def State.irq (s : State) : Bool := s.done && s.doneie

end Sys2Proof.Machine
end

