-- ==== Sys2Proof/Machine/Operands.lean ====
section
/-! DEFINITION. The operands of a command (30_encoding.md R112): ADDR and LEN as unbounded numbers, the key, the IV, a
block of BUF, and the range check (60_exceptions.md R301). -/

namespace Sys2Proof.Machine

/-- `a = x[ADDR]`, an unbounded number (R112, 00_scope.md R10). -/
def State.operandAddr (s : State) : Nat := s.addr.toNat

/-- `L = x[LEN]`, an unbounded number (R112, 00_scope.md R10). -/
def State.operandLen (s : State) : Nat := s.len.toNat

/-- `KEY`, 16 bytes (10_state.md R36). -/
def State.keyBytes (s : State) : List Byte := s.key.bytes

/-- `IVB`, 16 bytes (10_state.md R37). -/
def State.ivBytes (s : State) : List Byte := s.iv.bytes

/-- `BlockAt(a)` (40_command_cycle.md R146). -/
def State.blockAt (s : State) (a : Nat) : List Byte := s.memRead a 16

/-- Offsets below `e` are all inside BUF: the check whose failure is RANGE (60_exceptions.md R301). -/
def State.fits (s : State) (e : Nat) : Bool := Nat.ble e s.bufSize

end Sys2Proof.Machine
end

