-- ==== Sys2Proof/Machine/Bus.lean ====
section
/-! DEFINITION. The bus slave port (20_memory.md R80 to R84, 10_state.md R32 to R42, 60_exceptions.md R303, R304): the
register map, reads, writes, the accesses that are answered with a bus error. -/

namespace Sys2Proof.Machine

/-- What an aligned offset selects (10_state.md R32, 20_memory.md R83, R89). -/
inductive Target
  | id
  | cmd
  | status
  | inten
  | key (i : Fin 4)
  | iv (i : Fin 4)
  | addr
  | len
  | rlen
  | bufsz
  /-- the BUF window's word whose first byte is `BUF[start]` -/
  | bufWord (start : Nat)
  | unmapped
  deriving DecidableEq, Repr

/-- The register block, by byte offset (R32). -/
def registerTarget : Nat → Target
  | 0x0000 => .id
  | 0x0004 => .cmd
  | 0x0008 => .status
  | 0x000C => .inten
  | 0x0010 => .key 0
  | 0x0014 => .key 1
  | 0x0018 => .key 2
  | 0x001C => .key 3
  | 0x0020 => .iv 0
  | 0x0024 => .iv 1
  | 0x0028 => .iv 2
  | 0x002C => .iv 3
  | 0x0030 => .addr
  | 0x0034 => .len
  | 0x0038 => .rlen
  | 0x003C => .bufsz
  | _ => .unmapped

/-- What an offset selects for a given BUF_SIZE: a register, a word of the BUF window, or nothing (R32, R42, R83). -/
def target (size : Nat) (offset : Offset) : Target :=
  let n := offset.toNat
  if n < 0x0040 then registerTarget n
  else if 0x1000 ≤ n ∧ n + 4 ≤ 0x1000 + size then .bufWord (n - 0x1000)
  else .unmapped

/-- What a served read returns (R32): KEY reads 0, the BUF window reads 0 while BUSY, a hole reads 0. No read has a side
effect (20_memory.md R88). -/
def State.readTarget (s : State) : Target → Word32
  | .id => Config.idValue
  | .cmd => s.cmd
  | .status => s.statusWord
  | .inten => s.intenWord
  | .key _ => 0#32
  | .iv i => s.iv.get i
  | .addr => s.addr
  | .len => s.len
  | .rlen => s.rlen
  | .bufsz => s.bufsz
  | .bufWord start => if s.busy then 0#32 else le32 (s.memRead start 4)
  | .unmapped => 0#32

/-- The targets whose writes are discarded while BUSY = 1 (R32, 70 R345). -/
def Target.frozenWhileBusy : Target → Bool
  | .id => false
  | .cmd => true
  | .status => false
  | .inten => false
  | .key _ => true
  | .iv _ => true
  | .addr => true
  | .len => true
  | .rlen => false
  | .bufsz => false
  | .bufWord _ => true
  | .unmapped => false

/-- A write that is performed (R32 to R42): a KEY write clears KSV whatever it writes (R36); RO registers and holes
ignore it. -/
def State.performWrite (s : State) (d : Word32) : Target → State
  | .id => s
  | .cmd => s.accept d
  | .status => s.writeStatus d
  | .inten => s.writeInten d
  | .key i => { s with key := s.key.set i d, ksv := false }
  | .iv i => { s with iv := s.iv.set i d }
  | .addr => { s with addr := d }
  | .len => { s with len := d }
  | .rlen => s
  | .bufsz => s
  | .bufWord start => s.memWrite start (bytesLe32 d)
  | .unmapped => s

/-- A served write: performed, or discarded with OVR <- 1 (R32, 60 R304). -/
def State.writeTarget (s : State) (t : Target) (d : Word32) : State :=
  if s.busy && t.frozenWhileBusy then { s with ovr := true } else s.performWrite d t

/-- An access the engine serves: 32 bits wide at a multiple of 4 (20_memory.md R81). -/
def served (width : Nat) (offset : Offset) : Bool := decide (width = 32 ∧ offset.toNat % 4 = 0)

/-- The engine's answer to an access: the data of a served read, and a bus error with data 0 on a read that is not served
(20_memory.md R81). -/
def State.answer (s : State) : BusAccess → BusResponse
  | .read width offset =>
    if served width offset then .readData (s.readTarget (target s.bufSize offset)) else .readError 0#32
  | .write width offset _ => if served width offset then .writeDone else .writeError

/-- What an access does to the engine: only a served write does anything (20_memory.md R81, R88). -/
def State.afterAccess (s : State) : BusAccess → State
  | .read _ _ => s
  | .write width offset d => if served width offset then s.writeTarget (target s.bufSize offset) d else s

/-- One bus access (20_memory.md R80): its effect, and its answer put where the host reads it. -/
def State.busAccess (s : State) (a : BusAccess) : State := { s.afterAccess a with response := some (s.answer a) }

end Sys2Proof.Machine
end

