-- ==== Sys2Proof/WellFormed.lean ====
section
/-! DEFINITION. Which commands can be written: a block length is a number from 0 to 255 (30_encoding.md R112, R117; "the
assembler rejects larger values"). A block length of 0 is well formed and fails with CONFIG when it is executed. -/

namespace Sys2Proof

/-- The block length fits the 8-bit field BLK (R111, R117). -/
abbrev BlockLengthEncodable (bl : Nat) : Prop := bl ≤ 255

/-- A command that has an encoding. -/
def Instr.wellFormed : Instr → Bool
  | .nop => true
  | .keyexp => true
  | .encb => true
  | .decb => true
  | .padPkcs7 bl => decide (BlockLengthEncodable bl)
  | .padX923 bl => decide (BlockLengthEncodable bl)
  | .unpadPkcs7 bl => decide (BlockLengthEncodable bl)
  | .unpadX923 bl => decide (BlockLengthEncodable bl)
  | .cbcencPkcs7 => true
  | .cbcencX923 => true
  | .cbcdecPkcs7 => true
  | .cbcdecX923 => true
  | .keyclr => true

end Sys2Proof
end

