-- ==== Sys2Proof/Decode.lean ====
section
/-! DEFINITION. The command word (30_encoding.md R110 to R116): its fields, the decoder, total on every 32-bit word, the
encoder, written from format C of R111, and the opcode map of R113. -/

namespace Sys2Proof

/-- The two padding schemes (00_scope.md R3; the SCH bit of 30_encoding.md R111). -/
inductive Scheme
  /-- SCH = 0 -/
  | pkcs7
  /-- SCH = 1, ANSI X9.23 -/
  | x923
  deriving DecidableEq, Repr

/-- Why a command word is Illegal (30_encoding.md R115). All four have the same effect (R151). -/
inductive IllegalWord
  /-- a bit of 31:16 or 7:5 is set -/
  | reservedBits
  /-- OPC is 0x9 to 0xF -/
  | reservedOpcode
  /-- SCH = 1 or BLK ≠ 0 with OPC 0x0, 0x1, 0x2, 0x3 or 0x8 -/
  | operandOnPlainCommand
  /-- BLK ≠ 0 with OPC 0x6 or 0x7 -/
  | blockLengthOnCbc
  deriving DecidableEq, Repr

/-- What a command word decodes to: exactly one command, or Illegal (R114). -/
inductive Decoded
  | command (i : Instr)
  | illegal (why : IllegalWord)
  deriving DecidableEq, Repr

/-- One row of the opcode map of R113. -/
structure OpcodeRow where
  mnemonic : String
  matchBits : Word32
  mask : Word32
  deriving DecidableEq, Repr

/-- OPC, bits 3:0 (R111). -/
def opcField (w : Word32) : BitVec 4 := w.extractLsb' 0 4

/-- SCH, bit 4 (R111). -/
def schField (w : Word32) : BitVec 1 := w.extractLsb' 4 1

/-- RES0, bits 7:5 (R111). -/
def res0Field (w : Word32) : BitVec 3 := w.extractLsb' 5 3

/-- BLK, bits 15:8 (R111). -/
def blkField (w : Word32) : BitVec 8 := w.extractLsb' 8 8

/-- RES1, bits 31:16 (R111). -/
def res1Field (w : Word32) : BitVec 16 := w.extractLsb' 16 16

/-- A command that takes neither SCH nor BLK (the last case of R114). -/
def decodePlain (w : Word32) (i : Instr) : Decoded :=
  if schField w ≠ 0#1 ∨ blkField w ≠ 0#8 then .illegal .operandOnPlainCommand else .command i

/-- A command that takes SCH and BLK: any scheme, any block length, 0 too (R114, R112). -/
def decodePadding (w : Word32) (onPkcs7 onX923 : Nat → Instr) : Decoded :=
  .command (if schField w = 0#1 then onPkcs7 (blkField w).toNat else onX923 (blkField w).toNat)

/-- A command that takes SCH and no BLK (R114). -/
def decodeCbc (w : Word32) (onPkcs7 onX923 : Instr) : Decoded :=
  if blkField w ≠ 0#8 then .illegal .blockLengthOnCbc
  else .command (if schField w = 0#1 then onPkcs7 else onX923)

/-- Decoding, a total function of the word alone (R114, R116). -/
def decode (w : Word32) : Decoded :=
  if res1Field w ≠ 0#16 ∨ res0Field w ≠ 0#3 then .illegal .reservedBits
  else match (opcField w).toNat with
    | 0x0 => decodePlain w .nop
    | 0x1 => decodePlain w .keyexp
    | 0x2 => decodePlain w .encb
    | 0x3 => decodePlain w .decb
    | 0x4 => decodePadding w .padPkcs7 .padX923
    | 0x5 => decodePadding w .unpadPkcs7 .unpadX923
    | 0x6 => decodeCbc w .cbcencPkcs7 .cbcencX923
    | 0x7 => decodeCbc w .cbcdecPkcs7 .cbcdecX923
    | 0x8 => decodePlain w .keyclr
    | _ => .illegal .reservedOpcode

/-- Format C, most significant bit first: `rrrrrrrrrrrrrrrr bbbbbbbb rrr s oooo` (R111). -/
def formatC (blk : BitVec 8) (sch : BitVec 1) (opc : BitVec 4) : Word32 :=
  0#16 ++ blk ++ 0#3 ++ sch ++ opc

/-- The command word of a command (R111, R113). -/
def encode : Instr → Word32
  | .nop => formatC 0#8 0#1 0x0#4
  | .keyexp => formatC 0#8 0#1 0x1#4
  | .encb => formatC 0#8 0#1 0x2#4
  | .decb => formatC 0#8 0#1 0x3#4
  | .padPkcs7 bl => formatC (BitVec.ofNat 8 bl) 0#1 0x4#4
  | .padX923 bl => formatC (BitVec.ofNat 8 bl) 1#1 0x4#4
  | .unpadPkcs7 bl => formatC (BitVec.ofNat 8 bl) 0#1 0x5#4
  | .unpadX923 bl => formatC (BitVec.ofNat 8 bl) 1#1 0x5#4
  | .cbcencPkcs7 => formatC 0#8 0#1 0x6#4
  | .cbcencX923 => formatC 0#8 1#1 0x6#4
  | .cbcdecPkcs7 => formatC 0#8 0#1 0x7#4
  | .cbcdecX923 => formatC 0#8 1#1 0x7#4
  | .keyclr => formatC 0#8 0#1 0x8#4

/-- The opcode map (R113), copied row by row. -/
def opcodeTable : List OpcodeRow :=
  [ ⟨"NOP", 0x00000000#32, 0xFFFFFFFF#32⟩,
    ⟨"KEYEXP", 0x00000001#32, 0xFFFFFFFF#32⟩,
    ⟨"ENCB", 0x00000002#32, 0xFFFFFFFF#32⟩,
    ⟨"DECB", 0x00000003#32, 0xFFFFFFFF#32⟩,
    ⟨"PAD.PKCS7", 0x00000004#32, 0xFFFF00FF#32⟩,
    ⟨"PAD.X923", 0x00000014#32, 0xFFFF00FF#32⟩,
    ⟨"UNPAD.PKCS7", 0x00000005#32, 0xFFFF00FF#32⟩,
    ⟨"UNPAD.X923", 0x00000015#32, 0xFFFF00FF#32⟩,
    ⟨"CBCENC.PKCS7", 0x00000006#32, 0xFFFFFFFF#32⟩,
    ⟨"CBCENC.X923", 0x00000016#32, 0xFFFFFFFF#32⟩,
    ⟨"CBCDEC.PKCS7", 0x00000007#32, 0xFFFFFFFF#32⟩,
    ⟨"CBCDEC.X923", 0x00000017#32, 0xFFFFFFFF#32⟩,
    ⟨"KEYCLR", 0x00000008#32, 0xFFFFFFFF#32⟩ ]

/-- The test of R113: a word selects a row when `w & mask = match`. -/
def OpcodeRow.selectedBy (row : OpcodeRow) (w : Word32) : Bool := w &&& row.mask == row.matchBits

/-- The 32-bit command word the opcode table's numbering gives: one bus word, whose bits above `nbits` are 0 (R110). -/
def tableWord (nbits w : Nat) : Word32 := BitVec.ofNat 32 (w % 2 ^ nbits)

/-- The command the decoder reads from a word numbered as the opcode table numbers it; none for an Illegal word. -/
def decodeTableWord (nbits w : Nat) : Option Instr :=
  match decode (tableWord nbits w) with
  | .command i => some i
  | .illegal _ => none

end Sys2Proof
end

