-- ==== Sys2Proof/Machine/Padding.lean ====
section
/-! DEFINITION. The padding encoder and decoder (42_padding.md): the arithmetic and the checks as functions, then PAD and
UNPAD in both schemes. -/

namespace Sys2Proof.Machine

/-- `PadLen(L, bl)` (R220). -/
def padLen (L bl : Nat) : Nat := bl - L % bl

/-- `PadBytesP7(n)` (R221). -/
def padBytesP7 (n : Nat) : List Byte := List.replicate n (BitVec.ofNat 8 n)

/-- `PadBytesX9(n)` (R222). -/
def padBytesX9 (n : Nat) : List Byte := List.replicate (n - 1) 0#8 ++ [BitVec.ofNat 8 n]

/-- The pad bytes of a scheme. -/
def padBytes : Scheme → Nat → List Byte
  | .pkcs7 => padBytesP7
  | .x923 => padBytesX9

/-- What the bytes before the last pad byte must be, given that byte: itself in PKCS7 (R224), 0 in X9.23 (R225). -/
def padFiller : Scheme → Byte → Byte
  | .pkcs7, v => v
  | .x923, _ => 0#8

/-- `UnpadP7(D, L)` and `UnpadX9(D, L)` with L the length of D (R224, R225): the plaintext length, or none for WPAD. -/
def unpad (sch : Scheme) (D : List Byte) : Option Nat :=
  match D.reverse with
  | [] => none
  | v :: front =>
    if v.toNat = 0 ∨ D.length < v.toNat then none
    else if (front.take (v.toNat - 1)).all (fun b => b == padFiller sch v) then some (D.length - v.toNat)
    else none

/-- The common body of PAD (R226, R227). -/
def State.padMessage (s : State) (sch : Scheme) (bl : Nat) : State :=
  if bl = 0 then s.raise .config
  else
    let a := s.operandAddr
    let L := s.operandLen
    let n := padLen L bl
    if s.fits (a + L + n) then (s.memWrite (a + L) (padBytes sch n)).finish (L + n)
    else s.raise .range

/-- The common body of UNPAD (R228, R229): checks in the order CONFIG, RANGE, WCTL, WPAD. -/
def State.unpadMessage (s : State) (sch : Scheme) (bl : Nat) : State :=
  if bl = 0 then s.raise .config
  else
    let a := s.operandAddr
    let L := s.operandLen
    if s.fits (a + L) then
      if L = 0 ∨ L % bl ≠ 0 then s.raise .wctl
      else match unpad sch (s.memRead a L) with
        | none => s.raise .wpad
        | some m => s.finish m
    else s.raise .range

/-- PAD.PKCS7 (R226). -/
def execPadPkcs7 (bl : Nat) (s : State) : Host.Outcome State Fault Refusal := .next (s.padMessage .pkcs7 bl)

/-- PAD.X923 (R227). -/
def execPadX923 (bl : Nat) (s : State) : Host.Outcome State Fault Refusal := .next (s.padMessage .x923 bl)

/-- UNPAD.PKCS7 (R228). -/
def execUnpadPkcs7 (bl : Nat) (s : State) : Host.Outcome State Fault Refusal := .next (s.unpadMessage .pkcs7 bl)

/-- UNPAD.X923 (R229). -/
def execUnpadX923 (bl : Nat) (s : State) : Host.Outcome State Fault Refusal := .next (s.unpadMessage .x923 bl)

end Sys2Proof.Machine
end

