-- ==== Sys2Proof/Machine/Speck.lean ====
section
/-! DEFINITION. The Speck engine (41_speck.md): the ARX round and its inverse, the key schedule with its cache, block
encryption and decryption, and the commands KEYEXP, ENCB, DECB and KEYCLR. -/

namespace Sys2Proof.Machine

/-- `rotr64(a, r)` for 0 < r < 64 (00_scope.md R10). -/
def rotr64 (a : Word64) (r : Nat) : Word64 := a >>> r ||| a <<< (64 - r)

/-- `rotl64(a, r)` for 0 < r < 64 (00_scope.md R10). -/
def rotl64 (a : Word64) (r : Nat) : Word64 := a <<< r ||| a >>> (64 - r)

/-- `Round(x, y, k)` on the pair (x, y) (R171; the operation order of 90_conflicts.md C1). -/
def speckRound (k : Word64) (xy : Word64 × Word64) : Word64 × Word64 :=
  let x' := (rotr64 xy.1 8 + xy.2) ^^^ k
  (x', rotl64 xy.2 3 ^^^ x')

/-- `RoundInv(x', y', k)` on the pair (x', y') (R172). -/
def speckRoundInv (k : Word64) (xy : Word64 × Word64) : Word64 × Word64 :=
  let y := rotr64 (xy.2 ^^^ xy.1) 3
  (rotl64 ((xy.1 ^^^ k) - y) 8, y)

/-- The `count` round keys from index `i` on, from the pair (l_i, k_i): the round with the index in the role of the round
key (R174). -/
def scheduleFrom : Nat → Nat → Word64 × Word64 → List Word64
  | 0, _, _ => []
  | count + 1, i, lk => lk.2 :: scheduleFrom count (i + 1) (speckRound (BitVec.ofNat 64 i) lk)

/-- The schedule has as many entries as asked for. -/
theorem scheduleFrom_length (count i : Nat) (lk : Word64 × Word64) : (scheduleFrom count i lk).length = count := by
  induction count generalizing i lk with
  | zero => rfl
  | succ count ih => simp [scheduleFrom, ih]

/-- `Expand(KEY)`, the 32 round keys of the 16 key bytes, with k_0 the first eight and l_0 the last (R173 to R176). -/
def expand (key : List Byte) : Vector Word64 32 := ⟨⟨scheduleFrom 32 0 (toWords key)⟩, scheduleFrom_length _ _ _⟩

/-- `Encrypt(rk, b)`: the 32 rounds in forward order (R178). -/
def encrypt (rk : Vector Word64 32) (b : List Byte) : List Byte :=
  fromWords (rk.toList.foldl (fun xy k => speckRound k xy) (toWords b))

/-- `Decrypt(rk, b)`: the 32 inverse rounds in reverse order (R178). -/
def decrypt (rk : Vector Word64 32) (b : List Byte) : List Byte :=
  fromWords (rk.toList.foldr speckRoundInv (toWords b))

/-- The schedule a command uses: RK while KSV = 1, else the expansion of KEY (R177, log 9). -/
def State.schedule (s : State) : Vector Word64 32 := if s.ksv then s.rk else expand s.keyBytes

/-- RK and KSV as an expansion of KEY leaves them (R180). -/
def State.loadSchedule (s : State) : State := { s with rk := expand s.keyBytes, ksv := true }

/-- Schedule write-back of a cipher command that finishes: only with KSV = 0 (R179). -/
def State.writeBack (s : State) : State := if s.ksv then s else s.loadSchedule

/-- The common body of ENCB and DECB: the block at ADDR replaced by `f schedule block` (R181, R182). -/
def State.cipherBlock (s : State) (f : Vector Word64 32 → List Byte → List Byte) : State :=
  let a := s.operandAddr
  if s.fits (a + 16) then ((s.memWrite a (f s.schedule (s.blockAt a))).writeBack).finish 16
  else s.raise .range

/-- KEYEXP (R180): always recomputed. -/
def execKeyexp (s : State) : Host.Outcome State Fault Refusal := .next (s.loadSchedule.finish 0)

/-- ENCB (R181). -/
def execEncb (s : State) : Host.Outcome State Fault Refusal := .next (s.cipherBlock encrypt)

/-- DECB (R182). -/
def execDecb (s : State) : Host.Outcome State Fault Refusal := .next (s.cipherBlock decrypt)

/-- KEYCLR (R183). -/
def execKeyclr (s : State) : Host.Outcome State Fault Refusal :=
  .next ({ s with key := Words4.zero, rk := zeroSchedule, ksv := false }.finish 0)

end Sys2Proof.Machine
end

