-- ==== Sys2Proof/Machine/Cbc.lean ====
section
/-! DEFINITION. The CBC controller (43_cbc.md): the chaining as functions, then CBCENC and CBCDEC in both schemes. -/

namespace Sys2Proof.Machine

/-- The `count` ciphertext blocks of the blocks of `P`, from a chain value on (R260). -/
def cbcEncFrom (rk : Vector Word64 32) : Nat → List Byte → List Byte → List Byte
  | 0, _, _ => []
  | count + 1, chain, P =>
    let c := encrypt rk (xorBlock (P.take 16) chain)
    c ++ cbcEncFrom rk count c (P.drop 16)

/-- `CbcEnc(rk, iv, P)` for a P of whole blocks (R260). -/
def cbcEnc (rk : Vector Word64 32) (iv P : List Byte) : List Byte := cbcEncFrom rk (P.length / 16) iv P

/-- The `count` plaintext blocks of the blocks of `C`, from a chain value on (R261). -/
def cbcDecFrom (rk : Vector Word64 32) : Nat → List Byte → List Byte → List Byte
  | 0, _, _ => []
  | count + 1, chain, C => xorBlock (decrypt rk (C.take 16)) chain ++ cbcDecFrom rk count (C.take 16) (C.drop 16)

/-- `CbcDec(rk, iv, C)` for a C of whole blocks (R261). -/
def cbcDec (rk : Vector Word64 32) (iv C : List Byte) : List Byte := cbcDecFrom rk (C.length / 16) iv C

/-- The common body of CBCENC (R263, R264). -/
def State.cbcEncrypt (s : State) (sch : Scheme) : State :=
  let a := s.operandAddr
  let L := s.operandLen
  let n := padLen L 16
  if s.fits (a + L + n) then
    ((s.memWrite a (cbcEnc s.schedule s.ivBytes (s.memRead a L ++ padBytes sch n))).writeBack).finish (L + n)
  else s.raise .range

/-- The common body of CBCDEC (R265, R266): checks in the order RANGE, WCTL, WPAD; nothing is written on an error. -/
def State.cbcDecrypt (s : State) (sch : Scheme) : State :=
  let a := s.operandAddr
  let L := s.operandLen
  if s.fits (a + L) then
    if L % 16 ≠ 0 ∨ L = 0 then s.raise .wctl
    else
      let Q := cbcDec s.schedule s.ivBytes (s.memRead a L)
      match unpad sch Q with
      | none => s.raise .wpad
      | some m => ((s.memWrite a Q).writeBack).finish m
  else s.raise .range

/-- CBCENC.PKCS7 (R263). -/
def execCbcencPkcs7 (s : State) : Host.Outcome State Fault Refusal := .next (s.cbcEncrypt .pkcs7)

/-- CBCENC.X923 (R264). -/
def execCbcencX923 (s : State) : Host.Outcome State Fault Refusal := .next (s.cbcEncrypt .x923)

/-- CBCDEC.PKCS7 (R265). -/
def execCbcdecPkcs7 (s : State) : Host.Outcome State Fault Refusal := .next (s.cbcDecrypt .pkcs7)

/-- CBCDEC.X923 (R266). -/
def execCbcdecX923 (s : State) : Host.Outcome State Fault Refusal := .next (s.cbcDecrypt .x923)

end Sys2Proof.Machine
end

