-- ==== Sys2Proof/Machine/Control.lean ====
section
/-! DEFINITION. The command with no data, NOP (40_command_cycle.md R150). (The outcome of an Illegal word, R151, is
`State.completeIllegal`.) -/

namespace Sys2Proof.Machine

/-- NOP (R150). -/
def execNop (s : State) : Host.Outcome State Fault Refusal := .next (s.finish 0)

end Sys2Proof.Machine
end

