-- ==== Sys2Proof/Machine/Dispatch.lean ====
section
/-! DEFINITION. The meaning of each command, one arm per constructor (40_command_cycle.md R142, R143). -/

namespace Sys2Proof.Machine

def exec (i : Instr) (s : State) : Host.Outcome State Fault Refusal :=
  match i with
  | .nop => Sys2Proof.Machine.execNop s
  | .keyexp => Sys2Proof.Machine.execKeyexp s
  | .encb => Sys2Proof.Machine.execEncb s
  | .decb => Sys2Proof.Machine.execDecb s
  | .padPkcs7 bl => Sys2Proof.Machine.execPadPkcs7 bl s
  | .padX923 bl => Sys2Proof.Machine.execPadX923 bl s
  | .unpadPkcs7 bl => Sys2Proof.Machine.execUnpadPkcs7 bl s
  | .unpadX923 bl => Sys2Proof.Machine.execUnpadX923 bl s
  | .cbcencPkcs7 => Sys2Proof.Machine.execCbcencPkcs7 s
  | .cbcencX923 => Sys2Proof.Machine.execCbcencX923 s
  | .cbcdecPkcs7 => Sys2Proof.Machine.execCbcdecPkcs7 s
  | .cbcdecX923 => Sys2Proof.Machine.execCbcdecX923 s
  | .keyclr => Sys2Proof.Machine.execKeyclr s

end Sys2Proof.Machine
end

