-- ==== Sys2Proof/Machine/Engine.lean ====
section
/-! DEFINITION. The steps of the three agents (00_scope.md R7): the engine's completion, and what each event does. -/

namespace Sys2Proof.Machine

/-- The engine's turn (40_command_cycle.md R143): enabled exactly when BUSY = 1, it runs the command in CMD; an Illegal
word completes with ILLEGAL (R151). With BUSY = 0 it changes nothing (log 5). -/
def State.engineTurn (s : State) : Host.Outcome State Fault Refusal :=
  if s.busy then
    match decode s.commandWord with
    | .command i => exec i s
    | .illegal _ => .next s.completeIllegal
  else .next s

/-- What one event does (R7). -/
def State.perform (s : State) : Event → Host.Outcome State Fault Refusal
  | .access a => .next (s.busAccess a)
  | .engine => s.engineTurn
  | .reset => .next s.resetStep

/-- The state in which the very next step runs the command word `w`: `w` accepted (R141) and the engine's turn first
(log 10). -/
def State.issue (s : State) (w : Word32) : State := { (s.accept w) with agenda := .engine :: s.agenda }

end Sys2Proof.Machine
end

