-- ==== Sys2Proof/Machine/Step.lean ====
section
/-! DEFINITION. One step of the interleaving (20_memory.md R87, R91), and the state in which the next step runs a given
command word. -/

namespace Sys2Proof.Machine

/-- One step: the next event of the agenda happens. With no event coming, the engine has its turn, so a pending command
completes and an idle engine stays as it is (40_command_cycle.md R143, log 5). -/
def step (s : State) : Host.Outcome State Fault Refusal :=
  match s.agenda with
  | [] => s.engineTurn
  | e :: rest => { s with agenda := rest }.perform e

/-- `s` with the command word accepted and the engine's turn next (log 10). -/
def State.withFetchWord (s : State) (nbits w : Nat) : State := s.issue (tableWord nbits w)

end Sys2Proof.Machine
end

