-- ==== Sys2Proof/Machine/HostProgram.lean ====
section
/-! DEFINITION. The host's side as the spec writes it (30_encoding.md R117, R118): how a command is written, and the bus
accesses that the pseudo-instructions stand for. A host program is a list of events on the agenda (log 10). -/

namespace Sys2Proof.Machine

/-- The text of a command (R117): its mnemonic, and for PAD and UNPAD the block length. -/
def commandText (i : Instr) : String :=
  match i with
  | .padPkcs7 bl => i.mnemonic ++ " #" ++ toString bl
  | .padX923 bl => i.mnemonic ++ " #" ++ toString bl
  | .unpadPkcs7 bl => i.mnemonic ++ " #" ++ toString bl
  | .unpadX923 bl => i.mnemonic ++ " #" ++ toString bl
  | .nop => i.mnemonic
  | .keyexp => i.mnemonic
  | .encb => i.mnemonic
  | .decb => i.mnemonic
  | .cbcencPkcs7 => i.mnemonic
  | .cbcencX923 => i.mnemonic
  | .cbcdecPkcs7 => i.mnemonic
  | .cbcdecX923 => i.mnemonic
  | .keyclr => i.mnemonic

/-- The assembler (R117): it rejects a block length above 255. -/
def assemble (i : Instr) : Option Word32 := if i.wellFormed then some (encode i) else none

/-- `WR` at a numeric offset (R118). -/
def wr (offset : Nat) (d : Word32) : BusAccess := .write 32 (BitVec.ofNat 16 offset) d

/-- `RD` at a numeric offset (R118). -/
def rd (offset : Nat) : BusAccess := .read 32 (BitVec.ofNat 16 offset)

/-- `.word <value>` issued: the write of a raw command word to CMD (R117). -/
def issueWord (w : Word32) : BusAccess := wr 0x0004 w

/-- `ISSUE <command>` (R118). -/
def issueCommand (i : Instr) : BusAccess := issueWord (encode i)

/-- The little-endian words of a byte sequence, extended at the end with 0x00 up to a multiple of 4 (R118). -/
def wordsOf : List Byte → List Word32
  | [] => []
  | [a] => [le32 [a, 0#8, 0#8, 0#8]]
  | [a, b] => [le32 [a, b, 0#8, 0#8]]
  | [a, b, c] => [le32 [a, b, c, 0#8]]
  | a :: b :: c :: d :: rest => le32 [a, b, c, d] :: wordsOf rest

/-- Writes of words at ascending offsets. -/
def wrWords : Nat → List Word32 → List BusAccess
  | _, [] => []
  | offset, w :: ws => wr offset w :: wrWords (offset + 4) ws

/-- `SETKEY <16 bytes>` (R118). -/
def setKey (b : List Byte) : List BusAccess := wrWords 0x0010 (wordsOf b)

/-- `SETIV <16 bytes>` (R118). -/
def setIv (b : List Byte) : List BusAccess := wrWords 0x0020 (wordsOf b)

/-- `WRBUF <k>, <bytes>` (R118). -/
def wrBuf (k : Nat) (b : List Byte) : List BusAccess := wrWords (0x1000 + k) (wordsOf b)

/-- `RDBUF <k>, <n>`: ceil(n / 4) reads in ascending order (R118). -/
def rdBuf (k n : Nat) : List BusAccess := (List.range ((n + 3) / 4)).map (fun j => rd (0x1000 + k + 4 * j))

/-- `WAIT` that takes `again + 1` reads of STATUS: the number of reads is not fixed, at least one (R118). -/
def waitReads (again : Nat) : List BusAccess := List.replicate (again + 1) (rd 0x0008)

/-- `WAIT` is over at a read of STATUS whose value has bit 0 (BUSY) = 0 (R118). -/
def waitOver : BusResponse → Bool
  | .readData d => !d.getLsbD 0
  | .writeDone => false
  | .readError _ => false
  | .writeError => false

/-- The engine with a host program on its agenda, run before the coming events. -/
def State.hosting (s : State) (program : List BusAccess) : State :=
  { s with agenda := program.map Event.access ++ s.agenda }

end Sys2Proof.Machine
end

