-- ==== Sys2Proof/Safety.lean ====
section
/-! DEFINITION. The terms the claims use: the invariants the spec gives the engine, what a completion writes, and what it
keeps. -/

namespace Sys2Proof.Machine

/-- 10_state.md R45: KSV = 1 implies that RK is the expansion of the current KEY. -/
def State.KeyCacheValid (s : State) : Prop := s.ksv = true → s.rk = expand s.keyBytes

/-- 10_state.md R46: while a command is pending, PEND holds its word (which CMD shows) and the inputs, all as they stand
now. While idle PEND is empty (log 7). -/
def State.PendFrozen (s : State) : Prop := s.pend = if s.busy then some (s.pendingOf s.cmd) else none

/-- 10_state.md R34: while BUSY = 1, DONE and ERRCODE read 0. -/
def State.BusyStatusClear (s : State) : Prop := s.busy = true → s.done = false ∧ s.errcode = .noError

/-- 40_command_cycle.md R144, R145: RLEN is at most BUF_SIZE, and 0 beside an error code. -/
def State.ResultInRange (s : State) : Prop := s.rlen.toNat ≤ s.bufSize ∧ (s.errcode ≠ .noError → s.rlen = 0#32)

/-- BUF is in its canonical form and lists only offsets below BUF_SIZE (20_memory.md R82). -/
def State.BufCanonical (s : State) : Prop := s.buf.wf ∧ ∀ c ∈ s.buf, c.1 < s.bufSize

/-- The invariant of the engine. -/
structure State.Inv (s : State) : Prop where
  bufSizeLegal : Config.BufSizeLegal s.bufSize
  bufCanonical : s.BufCanonical
  keyCacheValid : s.KeyCacheValid
  pendFrozen : s.PendFrozen
  busyStatusClear : s.BusyStatusClear
  resultInRange : s.ResultInRange

/-- The fields a completion writes (40_command_cycle.md R143), with code `code` and result length `r`. What PEND holds
afterwards is left open: it has no meaning while idle (10_state.md R46). -/
structure CompletedWith (t : State) (code : ErrCode) (r : Nat) : Prop where
  busy : t.busy = false
  done : t.done = true
  errcode : t.errcode = code
  rlen : t.rlen = BitVec.ofNat 32 r

/-- What no command changes: CMD, OVR, INTEN, IV, ADDR, LEN, BUFSZ, and the model's own fields. -/
structure KeepsHostRegisters (s t : State) : Prop where
  cmd : t.cmd = s.cmd
  ovr : t.ovr = s.ovr
  doneie : t.doneie = s.doneie
  iv : t.iv = s.iv
  addr : t.addr = s.addr
  len : t.len = s.len
  bufsz : t.bufsz = s.bufsz
  epoch : t.epoch = s.epoch
  agenda : t.agenda = s.agenda
  response : t.response = s.response

/-- KEY, KSV and RK are as they were. -/
structure KeepsKeyState (s t : State) : Prop where
  key : t.key = s.key
  ksv : t.ksv = s.ksv
  rk : t.rk = s.rk

/-- KEY is as it was, and the round-key file holds its expansion (41_speck.md R179, R180). -/
structure HoldsSchedule (s t : State) : Prop where
  key : t.key = s.key
  ksv : t.ksv = true
  rk : t.rk = expand s.keyBytes

/-- Every byte of BUF outside `[a, a + n)` reads as before. -/
def KeepsBytesOutside (s t : State) (a n : Nat) : Prop := ∀ b, b < a ∨ a + n ≤ b → t.byteAt b = s.byteAt b

/-- Every byte of BUF reads as before. -/
def KeepsBuffer (s t : State) : Prop := ∀ b, t.byteAt b = s.byteAt b

/-- 42_padding.md R224: the last of the `L` bytes of `D` is a pad count that is not 0 and not above `L`, and the bytes of
the padding before it all equal it. -/
def PadP7Passes (D : Nat → Byte) (L : Nat) : Prop :=
  (D (L - 1)).toNat ≠ 0 ∧ (D (L - 1)).toNat ≤ L ∧
    ∀ j, L - (D (L - 1)).toNat ≤ j → j + 1 < L → D j = D (L - 1)

/-- 42_padding.md R225: as R224, but the bytes of the padding before the last are all 0. -/
def PadX9Passes (D : Nat → Byte) (L : Nat) : Prop :=
  (D (L - 1)).toNat ≠ 0 ∧ (D (L - 1)).toNat ≤ L ∧
    ∀ j, L - (D (L - 1)).toNat ≤ j → j + 1 < L → D j = 0#8

/-- 10_state.md R32: the offsets whose writes are discarded while BUSY = 1: CMD, KEY0..KEY3, IV0..IV3, ADDR, LEN and the
BUF window. -/
def ProtectedOffset (size off : Nat) : Prop :=
  off = 0x0004 ∨ (0x0010 ≤ off ∧ off ≤ 0x0034) ∨ (0x1000 ≤ off ∧ off < 0x1000 + size)

/-- The next event is the host's write of `d` to offset `off`, 32 bits wide, and `rest` comes after it. -/
def State.NextWrites (s : State) (off : Nat) (d : Word32) (rest : List Event) : Prop :=
  ∃ o : Offset, o.toNat = off ∧ s.agenda = .access (.write 32 o d) :: rest

/-- The next event is the host's read of offset `off`, 32 bits wide, and `rest` comes after it. -/
def State.NextReads (s : State) (off : Nat) (rest : List Event) : Prop :=
  ∃ o : Offset, o.toNat = off ∧ s.agenda = .access (.read 32 o) :: rest

/-- The next event is the reset. -/
def State.NextResets (s : State) : Prop := ∃ rest, s.agenda = .reset :: rest

/-- Block `i` of a byte sequence, counting from 0. -/
def blockOf (i : Nat) (B : List Byte) : List Byte := (B.drop (16 * i)).take 16

/-- The state after a completion with an error (40_command_cycle.md R145, 60_exceptions.md R307): the code, DONE, BUSY and
RLEN, and nothing else; `p` is what the idle engine holds in PEND, which has no meaning then (10_state.md R46). -/
def State.errorState (s : State) (code : ErrCode) (p : Option Pending) : State :=
  { s with busy := false, done := true, errcode := code, rlen := 0#32, pend := p }

/-- Command `i` ends in `s` with the error `code` and with none of its effect (R145). -/
def FailsWith (i : Instr) (s : State) (code : ErrCode) : Prop := ∃ p, exec i s = .next (s.errorState code p)

/-- The state after one bus access whose answer is `r` and which does nothing to the engine. -/
def State.answered (s : State) (rest : List Event) (r : BusResponse) : State :=
  { s with agenda := rest, response := some r }

end Sys2Proof.Machine
end

