-- ==== Sys2Proof/Certificates/Slice0/Obligations.lean ====
section
/-! DEFINITION. The statements for the provers. Each docstring names the rule of spec/ it formalises; a convention of the
model's own is named with its log entry. -/

open Sys2Proof Sys2Proof.Machine

/-! ## Encoding -/

/-- 30_encoding.md R111, R113: decoding the word of a well-formed command gives the command back, and a word that decodes
to a command is that command's word. -/
def Obligations.DecodeEncodeAgree : Prop :=
  (∀ i : Instr, i.wellFormed = true → decode (encode i) = .command i) ∧
  (∀ (w : Word32) (i : Instr), decode w = .command i → i.wellFormed = true ∧ encode i = w)

/-- R113: a word decodes to a command of a row exactly when `w & mask = match`, no two rows match one word, and the three
examples of the rule are encoded as it says. -/
def Obligations.DecodeFollowsOpcodeMap : Prop :=
  (∀ (w : Word32) (m : String), (∃ i, decode w = .command i ∧ i.mnemonic = m) ↔
    ∃ row ∈ opcodeTable, row.mnemonic = m ∧ w &&& row.mask = row.matchBits) ∧
  (∀ (w : Word32), ∀ r₁ ∈ opcodeTable, ∀ r₂ ∈ opcodeTable,
    w &&& r₁.mask = r₁.matchBits → w &&& r₂.mask = r₂.matchBits → r₁ = r₂) ∧
  encode (.padX923 8) = 0x00000814#32 ∧ encode (.unpadPkcs7 16) = 0x00001005#32 ∧ encode .cbcdecX923 = 0x00000017#32

/-- R115 and 40_command_cycle.md R151: which words are Illegal, and that one written to CMD and given the engine's turn
completes with ILLEGAL, is stored in CMD, gets no bus error, and changes nothing else. (The agenda only says that the engine's
turn comes next. PEND has no meaning while idle, R46: it is left open.) -/
def Obligations.IllegalWordsCompleteWithIllegal : Prop :=
  ∀ w : Word32,
    let opc := w.toNat % 16
    let sch := w.toNat / 16 % 2
    let blk := w.toNat / 256 % 256
    ((∃ why, decode w = .illegal why) ↔
      (w.toNat / 65536 ≠ 0 ∨ w.toNat / 32 % 8 ≠ 0 ∨ 9 ≤ opc ∨
        ((opc ≤ 3 ∨ opc = 8) ∧ (sch = 1 ∨ blk ≠ 0)) ∨ ((opc = 6 ∨ opc = 7) ∧ blk ≠ 0))) ∧
    ∀ (s : State) (rest : List Event), (∃ why, decode w = .illegal why) → s.busy = false →
      s.NextWrites 0x0004 w (.engine :: rest) →
      ∃ p, core.run 2 s = .next { s with
        cmd := w, busy := false, done := true, errcode := .illegal, rlen := 0#32, pend := p,
        agenda := rest, response := some .writeDone }

/-- R113, R114: words of every family, written out from the encoding, decode to the commands they stand for. -/
def Obligations.SampleWordsDecode : Prop :=
  decode 0x00000000#32 = .command .nop ∧ decode 0x00000001#32 = .command .keyexp ∧
  decode 0x00000002#32 = .command .encb ∧ decode 0x00000003#32 = .command .decb ∧
  decode 0x0000FF04#32 = .command (.padPkcs7 255) ∧ decode 0x00000814#32 = .command (.padX923 8) ∧
  decode 0x00001005#32 = .command (.unpadPkcs7 16) ∧ decode 0x0000FF15#32 = .command (.unpadX923 255) ∧
  decode 0x00000006#32 = .command .cbcencPkcs7 ∧ decode 0x00000016#32 = .command .cbcencX923 ∧
  decode 0x00000007#32 = .command .cbcdecPkcs7 ∧ decode 0x00000017#32 = .command .cbcdecX923 ∧
  decode 0x00000008#32 = .command .keyclr

/-! ## The command cycle -/

/-- 40_command_cycle.md R141, 10_state.md R33: a write of CMD while idle accepts the word, and one while BUSY only sets
OVR. -/
def Obligations.CommandAcceptance : Prop :=
  ∀ (s : State) (w : Word32) (rest : List Event), s.NextWrites 0x0004 w rest →
    (s.busy = false → step s = .next { s with
      cmd := w, busy := true, done := false, errcode := .noError,
      pend := some ⟨w, s.key, s.iv, s.addr, s.len, s.buf⟩, agenda := rest, response := some .writeDone }) ∧
    (s.busy = true → step s = .next { s with ovr := true, agenda := rest, response := some .writeDone })

/-- R143: at the engine's turn, the next event of the agenda or, by log 5, the step taken when no event is coming, a step is
`exec` of the command that CMD decodes to; an Illegal word completes with ILLEGAL; while idle the turn changes nothing. -/
def Obligations.StepRunsThePendingCommand : Prop :=
  ∀ s s₀ : State, (s.agenda = [] ∧ s₀ = s) ∨ (∃ rest, s.agenda = .engine :: rest ∧ s₀ = { s with agenda := rest }) →
    (∀ i, s.busy = true → decode s.cmd = .command i → step s = exec i s₀) ∧
    (∀ why, s.busy = true → decode s.cmd = .illegal why → ∃ p, step s = .next (s₀.errorState .illegal p)) ∧
    (s.busy = false → step s = .next s₀)

/-- The model's own (log 10): the step after `withFetchWord` is `exec` of the word's command in the state its acceptance
leaves. -/
def Obligations.FetchedWordRunsNext : Prop :=
  ∀ (s : State) (nbits w : Nat) (i : Instr), decodeTableWord nbits w = some i →
    step (s.withFetchWord nbits w) = exec i { s with
      cmd := BitVec.ofNat 32 (w % 2 ^ nbits), busy := true, done := false, errcode := .noError,
      pend := some ⟨BitVec.ofNat 32 (w % 2 ^ nbits), s.key, s.iv, s.addr, s.len, s.buf⟩ }

/-- R145, 60_exceptions.md R307: every command completes, and one that ends in an error leaves every field as it was but
ERRCODE, DONE, BUSY and RLEN = 0; RLEN is at most BUF_SIZE (R144). No command changes CMD, OVR, INTEN, IV, ADDR, LEN or
BUFSZ. (What PEND holds while idle is left open, R46.) -/
def Obligations.CommandErrorsArePrecise : Prop :=
  ∀ (i : Instr) (s : State), ∃ t, exec i s = .next t ∧ t.busy = false ∧ t.done = true ∧
    KeepsHostRegisters s t ∧ t.rlen.toNat ≤ s.bufsz.toNat ∧
    (t.errcode ≠ .noError → ∃ p, t = s.errorState t.errcode p)

/-- R142: a command's result depends on the command, KEY, IV, ADDR, LEN and BUF (with its size and draw) alone: not on RK or
KSV, as long as the cache is valid (10_state.md R45), nor on any other field. -/
def Obligations.ResultDependsOnInputsOnly : Prop :=
  ∀ (i : Instr) (s₁ s₂ : State), s₁.KeyCacheValid → s₂.KeyCacheValid →
    s₁.key = s₂.key → s₁.iv = s₂.iv → s₁.addr = s₂.addr → s₁.len = s₂.len → s₁.bufsz = s₂.bufsz →
    s₁.buf = s₂.buf → s₁.epoch = s₂.epoch →
    ∃ t₁ t₂, exec i s₁ = .next t₁ ∧ exec i s₂ = .next t₂ ∧
      t₁.errcode = t₂.errcode ∧ t₁.rlen = t₂.rlen ∧ t₁.buf = t₂.buf ∧ t₁.key = t₂.key

/-- R143, 70_reset_and_hazards.md R352: a pending command completes (or a reset discards it) after finitely many steps. The
bound is the model's: it takes at most one step more than there are coming events (log 5). -/
def Obligations.PendingCommandCompletes : Prop :=
  ∀ s : State, s.busy = true → ∃ k ≤ s.agenda.length + 1, ∃ t, core.run k s = .next t ∧ t.busy = false

/-- 93_implementation_defined.md, part 1: nothing the machine does is stuck; every step answers a next state. -/
def Obligations.EveryStepGoesOn : Prop := ∀ s : State, ∃ t, step s = .next t

/-! ## Commands with no data, and the Speck engine -/

/-- 40_command_cycle.md R150. (Here and below, what PEND holds while the engine is idle is left open: it has no meaning then,
10_state.md R46.) -/
def Obligations.NopEffect : Prop :=
  encode .nop = 0x00000000#32 ∧ (∀ w : Word32, w.toNat % 16 = 0 → w ≠ 0#32 → ∃ why, decode w = .illegal why) ∧
  ∀ s : State, ∃ p, exec .nop s = .next
    { s with busy := false, done := true, errcode := .noError, rlen := 0#32, pend := p }

/-- 41_speck.md R180, with its corner case, the zero key's schedule. -/
def Obligations.KeyexpEffect : Prop :=
  encode .keyexp = 0x00000001#32 ∧
  (∀ s : State, ∃ p, exec .keyexp s = .next { s with
    rk := expand s.keyBytes, ksv := true, busy := false, done := true, errcode := .noError, rlen := 0#32, pend := p }) ∧
  (expand (List.replicate 16 0#8))[0] = 0#64 ∧ (expand (List.replicate 16 0#8))[1] = 0#64 ∧
  (expand (List.replicate 16 0#8))[2] = 1#64

/-- 41_speck.md R183: KEYCLR leaves the zero key with an all-zero RK, which is not its expansion. -/
def Obligations.KeyclrEffect : Prop :=
  encode .keyclr = 0x00000008#32 ∧
  (∀ s : State, ∃ p, exec .keyclr s = .next { s with
    key := ⟨0#32, 0#32, 0#32, 0#32⟩, rk := Vector.replicate 32 0#64, ksv := false,
    busy := false, done := true, errcode := .noError, rlen := 0#32, pend := p }) ∧
  Vector.replicate 32 0#64 ≠ expand (List.replicate 16 0#8)

/-- 41_speck.md R181 (with the write-back of R179): the block at ADDR is encrypted in place, every other byte and every
register a command keeps is unchanged; RANGE when it would pass the end of BUF. LEN is not looked at. -/
def Obligations.EncbEffect : Prop :=
  encode .encb = 0x00000002#32 ∧ ∀ s : State, s.KeyCacheValid →
    let a := s.addr.toNat
    (a + 16 ≤ s.bufsz.toNat → ∃ t, exec .encb s = .next t ∧ CompletedWith t .noError 16 ∧ KeepsHostRegisters s t ∧
      HoldsSchedule s t ∧ t.memRead a 16 = encrypt (expand s.keyBytes) (s.memRead a 16) ∧ KeepsBytesOutside s t a 16) ∧
    (s.bufsz.toNat < a + 16 → FailsWith .encb s .range)

/-- 41_speck.md R182 (with R179). -/
def Obligations.DecbEffect : Prop :=
  encode .decb = 0x00000003#32 ∧ ∀ s : State, s.KeyCacheValid →
    let a := s.addr.toNat
    (a + 16 ≤ s.bufsz.toNat → ∃ t, exec .decb s = .next t ∧ CompletedWith t .noError 16 ∧ KeepsHostRegisters s t ∧
      HoldsSchedule s t ∧ t.memRead a 16 = decrypt (expand s.keyBytes) (s.memRead a 16) ∧ KeepsBytesOutside s t a 16) ∧
    (s.bufsz.toNat < a + 16 → FailsWith .decb s .range)

/-- 41_speck.md R171, R172: the round's formulas, with rotations by 8 right and 3 left, and that the inverse round undoes the
round and the round the inverse. -/
def Obligations.SpeckRoundAndInverse : Prop :=
  ∀ x y k : Word64,
    speckRound k (x, y) =
      ((x.rotateRight 8 + y) ^^^ k, y.rotateLeft 3 ^^^ ((x.rotateRight 8 + y) ^^^ k)) ∧
    speckRoundInv k (x, y) =
      (((x ^^^ k) - (y ^^^ x).rotateRight 3).rotateLeft 8, (y ^^^ x).rotateRight 3) ∧
    speckRoundInv k (speckRound k (x, y)) = (x, y) ∧ speckRound k (speckRoundInv k (x, y)) = (x, y)

/-- 41_speck.md R173 to R175: the schedule's 32 entries are the k words of the recurrence that starts from the key's two
words and applies the round with the round index as its key. -/
def Obligations.KeyScheduleRecurrence : Prop :=
  ∀ (key : List Byte) (l k : Nat → Word64), key.length = 16 →
    k 0 = le64 (key.take 8) → l 0 = le64 (key.drop 8) →
    (∀ i, i ≤ 30 → (l (i + 1), k (i + 1)) = speckRound (BitVec.ofNat 64 i) (l i, k i)) →
    ∀ (i : Nat) (h : i < 32), (expand key)[i] = k i

/-- 41_speck.md R178: encryption is the 32 rounds in forward order, decryption the 32 inverse rounds in reverse order, and
each undoes the other on a block of 16 bytes. -/
def Obligations.BlockCipherRoundsInvert : Prop :=
  ∀ (rk : Vector Word64 32) (b : List Byte), b.length = 16 →
    (∀ xy : Nat → Word64 × Word64, xy 0 = toWords b →
      (∀ (i : Nat) (h : i < 32), xy (i + 1) = speckRound rk[i] (xy i)) → encrypt rk b = fromWords (xy 32)) ∧
    (∀ xy : Nat → Word64 × Word64, xy 0 = toWords b →
      (∀ (i : Nat) (h : i < 32), xy (i + 1) = speckRoundInv rk[31 - i] (xy i)) → decrypt rk b = fromWords (xy 32)) ∧
    decrypt rk (encrypt rk b) = b ∧ encrypt rk (decrypt rk b) = b

/-- 20_memory.md R85 with 00_scope.md R11: a block's first eight bytes are the word y and its last eight the word x, each
little-endian, and the words written back give the bytes. -/
def Obligations.BlockWordPacking : Prop :=
  ∀ b : List Byte, b.length = 16 →
    (toWords b).2.toNat = ∑ j ∈ Finset.range 8, (b.getD j 0#8).toNat * 2 ^ (8 * j) ∧
    (toWords b).1.toNat = ∑ j ∈ Finset.range 8, (b.getD (8 + j) 0#8).toNat * 2 ^ (8 * j) ∧
    fromWords (toWords b) = b ∧ (∀ xy, toWords (fromWords xy) = xy)

/-- 95_test_vectors.md V1, V7: the published Speck128/128 vector and the zero key's. -/
def Obligations.KnownAnswerVectors : Prop :=
  encrypt (expand [0x00#8, 0x01#8, 0x02#8, 0x03#8, 0x04#8, 0x05#8, 0x06#8, 0x07#8,
      0x08#8, 0x09#8, 0x0a#8, 0x0b#8, 0x0c#8, 0x0d#8, 0x0e#8, 0x0f#8])
    [0x20#8, 0x6d#8, 0x61#8, 0x64#8, 0x65#8, 0x20#8, 0x69#8, 0x74#8,
      0x20#8, 0x65#8, 0x71#8, 0x75#8, 0x69#8, 0x76#8, 0x61#8, 0x6c#8] =
    [0x18#8, 0x0d#8, 0x57#8, 0x5c#8, 0xdf#8, 0xfe#8, 0x60#8, 0x78#8,
      0x65#8, 0x32#8, 0x78#8, 0x79#8, 0x51#8, 0x98#8, 0x5d#8, 0xa6#8] ∧
  encrypt (expand (List.replicate 16 0#8)) (List.replicate 16 0#8) =
    [0x6d#8, 0x0a#8, 0x7f#8, 0x03#8, 0x4c#8, 0xd7#8, 0x8e#8, 0x20#8,
      0x76#8, 0x8d#8, 0xf3#8, 0xdc#8, 0xfd#8, 0x02#8, 0x5c#8, 0x66#8]

/-! ## Padding -/

/-- 42_padding.md R220: the pad length is 1 to bl, and bl exactly when the message is a multiple of bl. -/
def Obligations.PadLengthArithmetic : Prop :=
  ∀ L bl : Nat, 1 ≤ bl → bl ≤ 255 →
    padLen L bl = bl - L % bl ∧ 1 ≤ padLen L bl ∧ padLen L bl ≤ bl ∧ (padLen L bl = bl ↔ L % bl = 0)

/-- 42_padding.md R226: CONFIG, then RANGE, else n bytes n right after the message; no other byte and no register changes. -/
def Obligations.PadPkcs7Effect : Prop :=
  (∀ s : State, FailsWith (.padPkcs7 0) s .config) ∧
  ∀ (s : State) (bl : Nat), 1 ≤ bl → bl ≤ 255 →
    let a := s.addr.toNat
    let L := s.len.toNat
    let n := bl - L % bl
    encode (.padPkcs7 bl) = BitVec.ofNat 32 (0x04 + 256 * bl) ∧
    (a + L + n ≤ s.bufsz.toNat → ∃ t, exec (.padPkcs7 bl) s = .next t ∧ CompletedWith t .noError (L + n) ∧
      KeepsHostRegisters s t ∧ KeepsKeyState s t ∧ (∀ j, j < n → t.byteAt (a + L + j) = BitVec.ofNat 8 n) ∧
      KeepsBytesOutside s t (a + L) n) ∧
    (s.bufsz.toNat < a + L + n → FailsWith (.padPkcs7 bl) s .range)

/-- 42_padding.md R227: as R226, with n - 1 bytes 0 and one byte n. -/
def Obligations.PadX923Effect : Prop :=
  (∀ s : State, FailsWith (.padX923 0) s .config) ∧
  ∀ (s : State) (bl : Nat), 1 ≤ bl → bl ≤ 255 →
    let a := s.addr.toNat
    let L := s.len.toNat
    let n := bl - L % bl
    encode (.padX923 bl) = BitVec.ofNat 32 (0x14 + 256 * bl) ∧
    (a + L + n ≤ s.bufsz.toNat → ∃ t, exec (.padX923 bl) s = .next t ∧ CompletedWith t .noError (L + n) ∧
      KeepsHostRegisters s t ∧ KeepsKeyState s t ∧ (∀ j, j + 1 < n → t.byteAt (a + L + j) = 0#8) ∧
      t.byteAt (a + L + n - 1) = BitVec.ofNat 8 n ∧ KeepsBytesOutside s t (a + L) n) ∧
    (s.bufsz.toNat < a + L + n → FailsWith (.padX923 bl) s .range)

/-- 42_padding.md R228 with R223, R224: CONFIG, RANGE, WCTL, WPAD in that order, else RLEN is the length before the padding;
no byte of BUF and no register changes. -/
def Obligations.UnpadPkcs7Effect : Prop :=
  (∀ s : State, FailsWith (.unpadPkcs7 0) s .config) ∧
  ∀ (s : State) (bl : Nat), 1 ≤ bl → bl ≤ 255 →
    let a := s.addr.toNat
    let L := s.len.toNat
    let D := fun j => s.byteAt (a + j)
    encode (.unpadPkcs7 bl) = BitVec.ofNat 32 (0x05 + 256 * bl) ∧
    (s.bufsz.toNat < a + L → FailsWith (.unpadPkcs7 bl) s .range) ∧
    (a + L ≤ s.bufsz.toNat → L = 0 ∨ L % bl ≠ 0 → FailsWith (.unpadPkcs7 bl) s .wctl) ∧
    (a + L ≤ s.bufsz.toNat → L ≠ 0 → L % bl = 0 → ¬PadP7Passes D L →
      FailsWith (.unpadPkcs7 bl) s .wpad) ∧
    (a + L ≤ s.bufsz.toNat → L ≠ 0 → L % bl = 0 → PadP7Passes D L →
      ∃ p, exec (.unpadPkcs7 bl) s = .next { s with
        busy := false, done := true, errcode := .noError, rlen := BitVec.ofNat 32 (L - (D (L - 1)).toNat), pend := p })

/-- 42_padding.md R229 with R223, R225. -/
def Obligations.UnpadX923Effect : Prop :=
  (∀ s : State, FailsWith (.unpadX923 0) s .config) ∧
  ∀ (s : State) (bl : Nat), 1 ≤ bl → bl ≤ 255 →
    let a := s.addr.toNat
    let L := s.len.toNat
    let D := fun j => s.byteAt (a + j)
    encode (.unpadX923 bl) = BitVec.ofNat 32 (0x15 + 256 * bl) ∧
    (s.bufsz.toNat < a + L → FailsWith (.unpadX923 bl) s .range) ∧
    (a + L ≤ s.bufsz.toNat → L = 0 ∨ L % bl ≠ 0 → FailsWith (.unpadX923 bl) s .wctl) ∧
    (a + L ≤ s.bufsz.toNat → L ≠ 0 → L % bl = 0 → ¬PadX9Passes D L →
      FailsWith (.unpadX923 bl) s .wpad) ∧
    (a + L ≤ s.bufsz.toNat → L ≠ 0 → L % bl = 0 → PadX9Passes D L →
      ∃ p, exec (.unpadX923 bl) s = .next { s with
        busy := false, done := true, errcode := .noError, rlen := BitVec.ofNat 32 (L - (D (L - 1)).toNat), pend := p })

/-- 42_padding.md R230: PAD, then UNPAD of the same scheme and block length with LEN set to PAD's RLEN, succeeds with the
message's length and leaves the message as it was; the growth is 1 to bl and the padded length a multiple of bl. -/
def Obligations.PadUnpadRoundTrip : Prop :=
  ∀ (s : State) (bl : Nat) (padding unpadding : Instr), 1 ≤ bl → bl ≤ 255 →
    (padding = .padPkcs7 bl ∧ unpadding = .unpadPkcs7 bl) ∨ (padding = .padX923 bl ∧ unpadding = .unpadX923 bl) →
    let a := s.addr.toNat
    let L := s.len.toNat
    let n := bl - L % bl
    a + L + n ≤ s.bufsz.toNat →
      ∃ t u, exec padding s = .next t ∧ exec unpadding { t with len := t.rlen } = .next u ∧
        t.rlen.toNat = L + n ∧ (L + n) % bl = 0 ∧ 1 ≤ n ∧ n ≤ bl ∧
        u.errcode = .noError ∧ u.rlen = s.len ∧ ∀ j, j < L → u.byteAt (a + j) = s.byteAt (a + j)

/-! ## CBC -/

/-- 40_command_cycle.md R147: the XOR of two blocks is lane by lane and undoes itself. -/
def Obligations.BlockXorLaneWise : Prop :=
  ∀ p q : List Byte, p.length = 16 → q.length = 16 →
    (xorBlock p q).length = 16 ∧ (∀ j, j < 16 → (xorBlock p q).getD j 0#8 = p.getD j 0#8 ^^^ q.getD j 0#8) ∧
    xorBlock (xorBlock p q) q = p

/-- 43_cbc.md R260: block i of the ciphertext encrypts block i of P XOR the chain value, the IV for the first block and the
previous ciphertext block after it. -/
def Obligations.CbcEncryptionChains : Prop :=
  ∀ (rk : Vector Word64 32) (iv P : List Byte) (N : Nat), iv.length = 16 → P.length = 16 * N →
    (cbcEnc rk iv P).length = 16 * N ∧ ∀ i, i < N →
      blockOf i (cbcEnc rk iv P) =
        encrypt rk (xorBlock (blockOf i P) (if i = 0 then iv else blockOf (i - 1) (cbcEnc rk iv P)))

/-- 43_cbc.md R261: block i of the plaintext is the decryption of block i of C XOR the IV or the previous ciphertext block. -/
def Obligations.CbcDecryptionChains : Prop :=
  ∀ (rk : Vector Word64 32) (iv C : List Byte) (N : Nat), iv.length = 16 → C.length = 16 * N →
    (cbcDec rk iv C).length = 16 * N ∧ ∀ i, i < N →
      blockOf i (cbcDec rk iv C) =
        xorBlock (decrypt rk (blockOf i C)) (if i = 0 then iv else blockOf (i - 1) C)

/-- 43_cbc.md R262. -/
def Obligations.CbcDecryptionInvertsEncryption : Prop :=
  ∀ (rk : Vector Word64 32) (iv P : List Byte), iv.length = 16 → P.length % 16 = 0 →
    cbcDec rk iv (cbcEnc rk iv P) = P

/-- 43_cbc.md R263: RANGE, else the message with its PKCS7 padding is encrypted in place; the IV and every byte outside are
unchanged. -/
def Obligations.CbcencPkcs7Effect : Prop :=
  encode .cbcencPkcs7 = 0x00000006#32 ∧ ∀ s : State, s.KeyCacheValid →
    let a := s.addr.toNat
    let L := s.len.toNat
    let n := 16 - L % 16
    (a + L + n ≤ s.bufsz.toNat → ∃ t, exec .cbcencPkcs7 s = .next t ∧ CompletedWith t .noError (L + n) ∧
      KeepsHostRegisters s t ∧ HoldsSchedule s t ∧
      t.memRead a (L + n) =
        cbcEnc (expand s.keyBytes) s.ivBytes (s.memRead a L ++ List.replicate n (BitVec.ofNat 8 n)) ∧
      KeepsBytesOutside s t a (L + n)) ∧
    (s.bufsz.toNat < a + L + n → FailsWith .cbcencPkcs7 s .range)

/-- 43_cbc.md R264: as R263 with ANSI X9.23 padding. -/
def Obligations.CbcencX923Effect : Prop :=
  encode .cbcencX923 = 0x00000016#32 ∧ ∀ s : State, s.KeyCacheValid →
    let a := s.addr.toNat
    let L := s.len.toNat
    let n := 16 - L % 16
    (a + L + n ≤ s.bufsz.toNat → ∃ t, exec .cbcencX923 s = .next t ∧ CompletedWith t .noError (L + n) ∧
      KeepsHostRegisters s t ∧ HoldsSchedule s t ∧
      t.memRead a (L + n) =
        cbcEnc (expand s.keyBytes) s.ivBytes (s.memRead a L ++ (List.replicate (n - 1) 0#8 ++ [BitVec.ofNat 8 n])) ∧
      KeepsBytesOutside s t a (L + n)) ∧
    (s.bufsz.toNat < a + L + n → FailsWith .cbcencX923 s .range)

/-- 43_cbc.md R265: RANGE, WCTL, WPAD in that order, each leaving BUF and the schedule as they were; else the whole decrypted
buffer is written in place and RLEN is the length before the PKCS7 padding. -/
def Obligations.CbcdecPkcs7Effect : Prop :=
  encode .cbcdecPkcs7 = 0x00000007#32 ∧ ∀ s : State, s.KeyCacheValid →
    let a := s.addr.toNat
    let L := s.len.toNat
    let Q := cbcDec (expand s.keyBytes) s.ivBytes (s.memRead a L)
    let D := fun j => Q.getD j 0#8
    (s.bufsz.toNat < a + L → FailsWith .cbcdecPkcs7 s .range) ∧
    (a + L ≤ s.bufsz.toNat → L = 0 ∨ L % 16 ≠ 0 → FailsWith .cbcdecPkcs7 s .wctl) ∧
    (a + L ≤ s.bufsz.toNat → L ≠ 0 → L % 16 = 0 → ¬PadP7Passes D L →
      FailsWith .cbcdecPkcs7 s .wpad) ∧
    (a + L ≤ s.bufsz.toNat → L ≠ 0 → L % 16 = 0 → PadP7Passes D L →
      ∃ t, exec .cbcdecPkcs7 s = .next t ∧ CompletedWith t .noError (L - (D (L - 1)).toNat) ∧
        KeepsHostRegisters s t ∧ HoldsSchedule s t ∧ t.memRead a L = Q ∧ KeepsBytesOutside s t a L)

/-- 43_cbc.md R266: as R265 with the ANSI X9.23 check. -/
def Obligations.CbcdecX923Effect : Prop :=
  encode .cbcdecX923 = 0x00000017#32 ∧ ∀ s : State, s.KeyCacheValid →
    let a := s.addr.toNat
    let L := s.len.toNat
    let Q := cbcDec (expand s.keyBytes) s.ivBytes (s.memRead a L)
    let D := fun j => Q.getD j 0#8
    (s.bufsz.toNat < a + L → FailsWith .cbcdecX923 s .range) ∧
    (a + L ≤ s.bufsz.toNat → L = 0 ∨ L % 16 ≠ 0 → FailsWith .cbcdecX923 s .wctl) ∧
    (a + L ≤ s.bufsz.toNat → L ≠ 0 → L % 16 = 0 → ¬PadX9Passes D L →
      FailsWith .cbcdecX923 s .wpad) ∧
    (a + L ≤ s.bufsz.toNat → L ≠ 0 → L % 16 = 0 → PadX9Passes D L →
      ∃ t, exec .cbcdecX923 s = .next t ∧ CompletedWith t .noError (L - (D (L - 1)).toNat) ∧
        KeepsHostRegisters s t ∧ HoldsSchedule s t ∧ t.memRead a L = Q ∧ KeepsBytesOutside s t a L)

/-- 43_cbc.md R267: CBCENC, then CBCDEC of the same scheme with LEN set to CBCENC's RLEN, succeeds with the message's length
and gives the message back. -/
def Obligations.CbcCommandRoundTrip : Prop :=
  ∀ (s : State) (enc dec : Instr), s.KeyCacheValid →
    (enc = .cbcencPkcs7 ∧ dec = .cbcdecPkcs7) ∨ (enc = .cbcencX923 ∧ dec = .cbcdecX923) →
    let a := s.addr.toNat
    let L := s.len.toNat
    a + L + (16 - L % 16) ≤ s.bufsz.toNat →
      ∃ t u, exec enc s = .next t ∧ exec dec { t with len := t.rlen } = .next u ∧
        u.errcode = .noError ∧ u.rlen = s.len ∧ ∀ j, j < L → u.byteAt (a + j) = s.byteAt (a + j)

/-- 43_cbc.md R268: which message lengths CBCENC accepts at an ADDR, with the longest one and its padded length. -/
def Obligations.CbcencLongestMessage : Prop :=
  ∀ (s : State) (enc : Instr), enc = .cbcencPkcs7 ∨ enc = .cbcencX923 →
    let a := s.addr.toNat
    let L := s.len.toNat
    let room := s.bufsz.toNat - a
    ∃ t, exec enc s = .next t ∧ (t.errcode = .noError ↔ a + 16 * (L / 16 + 1) ≤ s.bufsz.toNat) ∧
      (t.errcode ≠ .noError → t.errcode = .range) ∧
      (room < 16 → t.errcode = .range) ∧
      (16 ≤ room → (t.errcode = .noError ↔ L ≤ 16 * (room / 16) - 1)) ∧
      (16 ≤ room → L = 16 * (room / 16) - 1 → t.rlen.toNat = 16 * (room / 16))

/-! ## Invariants -/

/-- The state after reset meets the engine's invariant: R45 (the cache), R46 (PEND), R34 (DONE and ERRCODE while BUSY), R144
(RLEN), R8 (BUF_SIZE) and BUF's canonical form (log 2). Its BUF_SIZE is the default (log 3). -/
def Obligations.InvariantHoldsAtReset : Prop := State.reset.Inv

/-- Every step keeps the engine's invariant: R45, R46 (with log 7), R34, R144, R8 and BUF's canonical form (log 2). -/
def Obligations.InvariantKeptByEveryStep : Prop := ∀ s t : State, s.Inv → step s = .next t → t.Inv

/-- 10_state.md R45: KSV = 1 implies that RK is the expansion of KEY, kept by every step; the schedule a command uses is then
Expand(KEY); only KEYEXP and a successful cipher command set KSV; a write of a KEY register, KEYCLR and reset clear it. -/
def Obligations.KeyCacheInvariant : Prop :=
  (∀ s t : State, s.KeyCacheValid → step s = .next t → t.KeyCacheValid) ∧
  (∀ s : State, s.KeyCacheValid → s.schedule = expand s.keyBytes) ∧
  (∀ s t : State, step s = .next t → s.ksv = false → t.ksv = true →
    s.busy = true ∧ t.busy = false ∧ t.errcode = .noError ∧
    ∃ i ∈ [Instr.keyexp, .encb, .decb, .cbcencPkcs7, .cbcencX923, .cbcdecPkcs7, .cbcdecX923], decode s.cmd = .command i) ∧
  (∀ (s : State) (i : Nat) (d : Word32) (rest : List Event), i < 4 → s.busy = false → s.NextWrites (0x0010 + 4 * i) d rest →
    ∃ t, step s = .next t ∧ t.ksv = false) ∧
  (∀ s : State, ∃ t, exec .keyclr s = .next t ∧ t.ksv = false) ∧
  (∀ s : State, s.NextResets → ∃ t, step s = .next t ∧ t.ksv = false)

/-- 10_state.md R46, 20_memory.md R94: as long as a command stays pending, no step changes its word or an input of it. -/
def Obligations.PendingInputsFrozen : Prop :=
  ∀ s t : State, step s = .next t → s.busy = true → t.busy = true →
    t.cmd = s.cmd ∧ t.key = s.key ∧ t.iv = s.iv ∧ t.addr = s.addr ∧ t.len = s.len ∧ t.buf = s.buf ∧ t.pend = s.pend ∧
    t.rk = s.rk ∧ t.ksv = s.ksv ∧ t.rlen = s.rlen ∧ t.errcode = s.errcode

/-- 70_reset_and_hazards.md R341: a byte of BUF keeps its value until a host write or a command writes it. It changes in a
step only by a reset, by a write of the window's word that holds it while idle, or by the completion of a command that
succeeds. -/
def Obligations.BytesChangeOnlyWhenWritten : Prop :=
  ∀ (s t : State) (b : Nat), step s = .next t → t.byteAt b ≠ s.byteAt b →
    s.NextResets ∨
    (s.busy = false ∧ ∃ (k : Nat) (d : Word32) (rest : List Event), s.NextWrites (0x1000 + 4 * k) d rest ∧
      4 * k ≤ b ∧ b < 4 * k + 4) ∨
    (s.busy = true ∧ t.busy = false ∧ t.errcode = .noError ∧
      ∃ i, decode s.cmd = .command i ∧ s.addr.toNat ≤ b ∧ b < s.bufsz.toNat)

/-- 10_state.md R44: RK's entries change only by KEYEXP, by a cipher command that succeeds, by KEYCLR and by reset; no bus
access writes RK, and no answer of the bus depends on it; after reset every entry is 0. -/
def Obligations.RoundKeyFileWriters : Prop :=
  (∀ s t : State, step s = .next t → t.rk ≠ s.rk →
    s.NextResets ∨ (s.busy = true ∧ t.busy = false ∧ t.errcode = .noError ∧
      ∃ i ∈ [Instr.keyexp, .encb, .decb, .cbcencPkcs7, .cbcencX923, .cbcdecPkcs7, .cbcdecX923, .keyclr],
        decode s.cmd = .command i)) ∧
  (∀ (s : State) (rk : Vector Word64 32) (a : BusAccess) (rest : List Event), s.agenda = .access a :: rest →
    ∃ t, step s = .next t ∧ t.rk = s.rk ∧ step { s with rk := rk } = .next { t with rk := rk }) ∧
  (∀ (i : Nat) (h : i < 32), State.reset.rk[i] = 0#64) ∧
  (∀ s : State, s.NextResets → ∃ t, step s = .next t ∧ ∀ (i : Nat) (h : i < 32), t.rk[i] = 0#64)

/-- 10_state.md R40: RLEN changes only at a completion (and by reset), and is 0 beside an error code a completion left. -/
def Obligations.ResultLengthChangesOnlyAtCompletion : Prop :=
  (∀ s t : State, step s = .next t → t.rlen ≠ s.rlen → s.NextResets ∨ (s.busy = true ∧ t.busy = false)) ∧
  (∀ s t : State, step s = .next t → s.busy = true → t.busy = false → t.errcode ≠ .noError → t.rlen = 0#32)

/-! ## Registers and the bus -/

/-- 10_state.md R32 to R41, 20_memory.md R88: what a 32-bit aligned read of each register returns, busy or not, and that it
changes nothing but the answer. -/
def Obligations.RegisterReads : Prop :=
  ∀ (s : State) (off : Nat) (rest : List Event), s.NextReads off rest → off < 0x0040 → off % 4 = 0 →
    ∃ d, step s = .next (s.answered rest (.readData d)) ∧
      (off = 0x0000 → d = 0x53504B31#32) ∧ (off = 0x0004 → d = s.cmd) ∧
      (off = 0x0008 → d.toNat = s.busy.toNat + 2 * s.done.toNat + 4 * s.ovr.toNat + 256 * s.ksv.toNat +
        16 * (match s.errcode with | .noError => 0 | .wctl => 1 | .wpad => 2 | .illegal => 3 | .config => 4 | .range => 5)) ∧
      (off = 0x000C → d.toNat = s.doneie.toNat) ∧ (0x0010 ≤ off → off ≤ 0x001C → d = 0#32) ∧
      (off = 0x0020 → d = s.iv.w0) ∧ (off = 0x0024 → d = s.iv.w1) ∧ (off = 0x0028 → d = s.iv.w2) ∧
      (off = 0x002C → d = s.iv.w3) ∧ (off = 0x0030 → d = s.addr) ∧ (off = 0x0034 → d = s.len) ∧
      (off = 0x0038 → d = s.rlen) ∧ (off = 0x003C → d = s.bufsz)

/-- 20_memory.md R88: no read has a side effect: a read of any width at any offset, busy or not, changes nothing but the
answer the host sees, so a second read of the same offset answers the same. -/
def Obligations.ReadsHaveNoSideEffect : Prop :=
  ∀ (s : State) (width : Nat) (off : Offset) (rest : List Event),
    s.agenda = .access (.read width off) :: .access (.read width off) :: rest →
      ∃ r, step s = .next (s.answered (.access (.read width off) :: rest) r) ∧ core.run 2 s = .next (s.answered rest r)

/-- 10_state.md R34: a write of STATUS clears DONE with bit 1 and OVR with bit 2, busy or not, and does nothing else. -/
def Obligations.StatusWriteOneToClear : Prop :=
  ∀ (s : State) (w : Word32) (rest : List Event), s.NextWrites 0x0008 w rest →
    step s = .next { s.answered rest .writeDone with
      done := if w.getLsbD 1 then false else s.done, ovr := if w.getLsbD 2 then false else s.ovr }

/-- 10_state.md R35: INTEN holds bit 0 of the word written, busy or not, and reads as it with the other bits 0. -/
def Obligations.IntenRegister : Prop :=
  (∀ (s : State) (w : Word32) (rest : List Event), s.NextWrites 0x000C w rest →
    step s = .next { s.answered rest .writeDone with doneie := w.getLsbD 0 }) ∧
  (∀ (s : State) (rest : List Event), s.NextReads 0x000C rest →
    step s = .next (s.answered rest (.readData (if s.doneie then 1#32 else 0#32)))) ∧
  State.reset.doneie = false

/-- 10_state.md R36: KEY's bytes lie in KEY0..KEY3 lane by lane; a read returns 0; a write while idle sets the register and
clears KSV, and nothing else; KEY changes otherwise only by KEYCLR (and reset). -/
def Obligations.KeyRegisters : Prop :=
  (∀ (s : State) (i j : Fin 4), s.keyBytes.getD (4 * i.val + j.val) 0#8 = (s.key.get i).extractLsb' (8 * j.val) 8) ∧
  (∀ (s : State) (i : Fin 4) (rest : List Event), s.NextReads (0x0010 + 4 * i.val) rest →
    step s = .next (s.answered rest (.readData 0#32))) ∧
  (∀ (s : State) (i : Fin 4) (d : Word32) (rest : List Event), s.NextWrites (0x0010 + 4 * i.val) d rest → s.busy = false →
    ∃ t, step s = .next t ∧ t.key.get i = d ∧ (∀ k, k ≠ i → t.key.get k = s.key.get k) ∧ t.ksv = false ∧
      { t with key := s.key, ksv := s.ksv } = s.answered rest .writeDone) ∧
  (∀ s t : State, step s = .next t → t.key ≠ s.key →
    s.NextResets ∨ (s.busy = true ∧ decode s.cmd = .command .keyclr) ∨
    (s.busy = false ∧ ∃ (i : Fin 4) (d : Word32) (rest : List Event), s.NextWrites (0x0010 + 4 * i.val) d rest)) ∧
  State.reset.key = ⟨0#32, 0#32, 0#32, 0#32⟩

/-- 10_state.md R37: IV's bytes lie in IV0..IV3 lane by lane; a read returns the register; a write while idle sets it and
nothing else; nothing but such a write (and reset) changes the IV. -/
def Obligations.IvRegisters : Prop :=
  (∀ (s : State) (i j : Fin 4), s.ivBytes.getD (4 * i.val + j.val) 0#8 = (s.iv.get i).extractLsb' (8 * j.val) 8) ∧
  (∀ (s : State) (i : Fin 4) (rest : List Event), s.NextReads (0x0020 + 4 * i.val) rest →
    step s = .next (s.answered rest (.readData (s.iv.get i)))) ∧
  (∀ (s : State) (i : Fin 4) (d : Word32) (rest : List Event), s.NextWrites (0x0020 + 4 * i.val) d rest → s.busy = false →
    ∃ t, step s = .next t ∧ t.iv.get i = d ∧ (∀ k, k ≠ i → t.iv.get k = s.iv.get k) ∧
      { t with iv := s.iv } = s.answered rest .writeDone) ∧
  (∀ s t : State, step s = .next t → t.iv ≠ s.iv →
    s.NextResets ∨
    (s.busy = false ∧ ∃ (i : Fin 4) (d : Word32) (rest : List Event), s.NextWrites (0x0020 + 4 * i.val) d rest)) ∧
  State.reset.iv = ⟨0#32, 0#32, 0#32, 0#32⟩

/-- 10_state.md R38, R39: any value can be written to ADDR and LEN while idle, with no other effect, and is read back; ENCB
and DECB give the same result for every LEN. -/
def Obligations.AddrAndLenRegisters : Prop :=
  (∀ (s : State) (d : Word32) (rest : List Event), s.busy = false →
    (s.NextWrites 0x0030 d rest → step s = .next { s.answered rest .writeDone with addr := d }) ∧
    (s.NextWrites 0x0034 d rest → step s = .next { s.answered rest .writeDone with len := d })) ∧
  (∀ (s : State) (rest : List Event),
    (s.NextReads 0x0030 rest → step s = .next (s.answered rest (.readData s.addr))) ∧
    (s.NextReads 0x0034 rest → step s = .next (s.answered rest (.readData s.len)))) ∧
  (∀ (s : State) (n : Word32) (i : Instr), i = .encb ∨ i = .decb →
    ∃ t, exec i s = .next t ∧ exec i { s with len := n } = .next { t with len := n }) ∧
  State.reset.addr = 0#32 ∧ State.reset.len = 0#32

/-- 20_memory.md R83: the window word k holds the four bytes from BUF[4k], little-endian; while BUSY it reads 0 and a write
of it only sets OVR. -/
def Obligations.BufWindow : Prop :=
  ∀ (s : State) (k : Nat) (rest : List Event), Config.BufSizeLegal s.bufsz.toNat → k < s.bufsz.toNat / 4 →
    (s.NextReads (0x1000 + 4 * k) rest → s.busy = false →
      ∃ d, step s = .next (s.answered rest (.readData d)) ∧
        d.toNat = (s.byteAt (4 * k)).toNat + 2 ^ 8 * (s.byteAt (4 * k + 1)).toNat + 2 ^ 16 * (s.byteAt (4 * k + 2)).toNat +
          2 ^ 24 * (s.byteAt (4 * k + 3)).toNat) ∧
    (s.NextReads (0x1000 + 4 * k) rest → s.busy = true → step s = .next (s.answered rest (.readData 0#32))) ∧
    (∀ w, s.NextWrites (0x1000 + 4 * k) w rest → s.busy = false →
      ∃ t, step s = .next t ∧ (∀ j, j < 4 → t.byteAt (4 * k + j) = w.extractLsb' (8 * j) 8) ∧
        KeepsBytesOutside s t (4 * k) 4 ∧ { t with buf := s.buf } = s.answered rest .writeDone) ∧
    (∀ w, s.NextWrites (0x1000 + 4 * k) w rest → s.busy = true →
      step s = .next { s.answered rest .writeDone with ovr := true })

/-- 10_state.md R42: a hole reads 0 and ignores writes, ID, RLEN and BUFSZ ignore writes, and KEY0..KEY3 read 0, busy or
not, none of them setting OVR. -/
def Obligations.HolesAndReadOnlyRegisters : Prop :=
  ∀ (s : State) (off : Nat) (d : Word32) (rest : List Event), Config.BufSizeLegal s.bufsz.toNat → off % 4 = 0 →
    ((0x0040 ≤ off ∧ off < 0x1000) ∨ 0x1000 + s.bufsz.toNat ≤ off →
      (s.NextReads off rest → step s = .next (s.answered rest (.readData 0#32))) ∧
      (s.NextWrites off d rest → step s = .next (s.answered rest .writeDone))) ∧
    (off = 0x0000 ∨ off = 0x0038 ∨ off = 0x003C → s.NextWrites off d rest →
      step s = .next (s.answered rest .writeDone)) ∧
    (0x0010 ≤ off → off ≤ 0x001C → s.NextReads off rest → step s = .next (s.answered rest (.readData 0#32)))

/-- 20_memory.md R81, 60_exceptions.md R303: an access that is not 32 bits wide or not at a multiple of 4 is answered with a
bus error, a read with data 0, and changes nothing, busy or not; one that is both never gets a bus error. -/
def Obligations.BusErrors : Prop :=
  ∀ (s : State) (width : Nat) (off : Offset) (d : Word32) (rest : List Event),
    (width ≠ 32 ∨ off.toNat % 4 ≠ 0 →
      (s.agenda = .access (.read width off) :: rest → step s = .next (s.answered rest (.readError 0#32))) ∧
      (s.agenda = .access (.write width off d) :: rest → step s = .next (s.answered rest .writeError))) ∧
    (width = 32 → off.toNat % 4 = 0 →
      (s.agenda = .access (.read width off) :: rest →
        ∃ t v, step s = .next t ∧ t.response = some (.readData v)) ∧
      (s.agenda = .access (.write width off d) :: rest → ∃ t, step s = .next t ∧ t.response = some .writeDone))

/-- 70_reset_and_hazards.md R345, 60_exceptions.md R304: a write discarded because BUSY = 1 sets OVR and does nothing else;
OVR is set by nothing else, and cleared only by a write of STATUS with bit 2 set or by reset. -/
def Obligations.OverrunRecordsDiscardedWrites : Prop :=
  (∀ (s : State) (off : Nat) (d : Word32) (rest : List Event), Config.BufSizeLegal s.bufsz.toNat → s.busy = true →
    off % 4 = 0 → ProtectedOffset s.bufsz.toNat off → s.NextWrites off d rest →
    step s = .next { s.answered rest .writeDone with ovr := true }) ∧
  (∀ s t : State, step s = .next t → s.ovr = false → t.ovr = true →
    s.busy = true ∧ ∃ (off : Nat) (d : Word32) (rest : List Event),
      s.NextWrites off d rest ∧ off % 4 = 0 ∧ ProtectedOffset s.bufsz.toNat off) ∧
  (∀ s t : State, step s = .next t → s.ovr = true → t.ovr = false →
    s.NextResets ∨ ∃ (d : Word32) (rest : List Event), s.NextWrites 0x0008 d rest ∧ d.getLsbD 2 = true)

/-- 60_exceptions.md R305: IRQ is DONE and DONEIE together; it rises only by a completion or by enabling it, and once up it
falls only when DONE is cleared (by a write of STATUS with bit 1 set, or by the acceptance of a command), DONEIE is cleared,
or a reset comes. -/
def Obligations.InterruptIsALevel : Prop :=
  (∀ s : State, s.irq = true ↔ s.done = true ∧ s.doneie = true) ∧
  (∀ s t : State, step s = .next t → s.irq = false → t.irq = true →
    (s.busy = true ∧ t.busy = false) ∨
    ∃ (d : Word32) (rest : List Event), s.NextWrites 0x000C d rest ∧ d.getLsbD 0 = true) ∧
  (∀ s t : State, step s = .next t → s.irq = true → t.irq = false →
    s.NextResets ∨ ∃ (d : Word32) (rest : List Event),
      (s.NextWrites 0x0008 d rest ∧ d.getLsbD 1 = true) ∨ (s.NextWrites 0x0004 d rest ∧ s.busy = false) ∨
      (s.NextWrites 0x000C d rest ∧ d.getLsbD 0 = false))

/-- 60_exceptions.md R310, 92_eei_decisions.md D18: key material does not flow back over the bus: two engines that differ only
in KEY, RK and the key that PEND holds answer every access alike. -/
def Obligations.BusAnswersRevealNoKey : Prop :=
  ∀ (s : State) (key : Words4) (rk : Vector Word64 32) (pend : Option Pending) (a : BusAccess) (rest : List Event),
    s.agenda = .access a :: rest →
    ∃ t u, step s = .next t ∧ step { s with key := key, rk := rk, pend := pend } = .next u ∧ t.response = u.response

/-- 30_encoding.md R118: while idle, SETKEY's and SETIV's four writes load the key and the IV (and SETKEY clears KSV, 10_state.md
R36) and do nothing else; WRBUF of four bytes at a multiple of 4 writes them and no other byte; ISSUE with the engine's turn
after it runs the command in the state its acceptance leaves. (The agenda and the answers are the model's, log 5, log 6.) -/
def Obligations.HostProgramsDriveTheEngine : Prop :=
  ∀ s : State, s.busy = false →
    (∀ b : List Byte, b.length = 16 → ∃ t, core.run 4 (s.hosting (setKey b)) = .next t ∧ t.keyBytes = b ∧ t.ksv = false ∧
      { t with key := s.key, ksv := s.ksv } = s.answered s.agenda .writeDone) ∧
    (∀ b : List Byte, b.length = 16 → ∃ t, core.run 4 (s.hosting (setIv b)) = .next t ∧ t.ivBytes = b ∧
      { t with iv := s.iv } = s.answered s.agenda .writeDone) ∧
    (∀ (k : Nat) (b : List Byte), Config.BufSizeLegal s.bufsz.toNat → 4 * k + 4 ≤ s.bufsz.toNat → b.length = 4 →
      ∃ t, core.run 1 (s.hosting (wrBuf (4 * k) b)) = .next t ∧ t.memRead (4 * k) 4 = b ∧ KeepsBytesOutside s t (4 * k) 4) ∧
    (∀ (i : Instr) (rest : List Event), i.wellFormed = true → s.agenda = .engine :: rest →
      core.run 2 (s.hosting [issueCommand i]) =
        exec i { s.accept (encode i) with agenda := rest, response := some .writeDone })

/-! ## Reset -/

/-- 70_reset_and_hazards.md R340: the reset step, at any time, gives every register its reset value (BUFSZ its BUF_SIZE) and
discards the pending command, which the engine is then too idle to complete; STATUS reads 0 and IRQ is 0. -/
def Obligations.ResetStepEffect : Prop :=
  ∀ s : State, s.NextResets → ∃ t, step s = .next t ∧
    t.cmd = 0#32 ∧ t.busy = false ∧ t.done = false ∧ t.ovr = false ∧ t.errcode = .noError ∧ t.ksv = false ∧
    t.statusWord = 0#32 ∧ t.doneie = false ∧ t.keyBytes = List.replicate 16 0#8 ∧ t.ivBytes = List.replicate 16 0#8 ∧
    t.addr = 0#32 ∧ t.len = 0#32 ∧ t.rlen = 0#32 ∧ t.bufsz = s.bufsz ∧ t.readTarget .id = 0x53504B31#32 ∧
    (∀ (i : Nat) (h : i < 32), t.rk[i] = 0#64) ∧ t.pend = none ∧ t.irq = false ∧ t.engineTurn = .next t

/-- 70_reset_and_hazards.md R341, with the model's own reading of the draw (log 1, log 2): after a reset step every byte of BUF
holds the draw of that reset, read as often as one likes, and a byte not written keeps it; another reset draws anew. -/
def Obligations.ResetDrawsTheBuffer : Prop :=
  (∀ s t : State, s.NextResets → step s = .next t → t.epoch = s.epoch + 1 ∧
    ∀ a, t.byteAt a = Config.bufDraw (s.epoch + 1) a) ∧
  (∀ s t : State, step s = .next t → ¬s.NextResets → t.epoch = s.epoch)
end

