-- ==== Sys2Proof/Laws/State.lean ====
section
/-! SUPPORT. One lemma per field per named update of State, so that no proof unfolds a record update. -/

namespace Sys2Proof.Machine

variable (s : State)

@[simp] theorem State.memWrite_cmd (a : Nat) (v : List Byte) : (s.memWrite a v).cmd = s.cmd := rfl
@[simp] theorem State.memWrite_busy (a : Nat) (v : List Byte) : (s.memWrite a v).busy = s.busy := rfl
@[simp] theorem State.memWrite_done (a : Nat) (v : List Byte) : (s.memWrite a v).done = s.done := rfl
@[simp] theorem State.memWrite_ovr (a : Nat) (v : List Byte) : (s.memWrite a v).ovr = s.ovr := rfl
@[simp] theorem State.memWrite_errcode (a : Nat) (v : List Byte) : (s.memWrite a v).errcode = s.errcode := rfl
@[simp] theorem State.memWrite_ksv (a : Nat) (v : List Byte) : (s.memWrite a v).ksv = s.ksv := rfl
@[simp] theorem State.memWrite_doneie (a : Nat) (v : List Byte) : (s.memWrite a v).doneie = s.doneie := rfl
@[simp] theorem State.memWrite_key (a : Nat) (v : List Byte) : (s.memWrite a v).key = s.key := rfl
@[simp] theorem State.memWrite_iv (a : Nat) (v : List Byte) : (s.memWrite a v).iv = s.iv := rfl
@[simp] theorem State.memWrite_addr (a : Nat) (v : List Byte) : (s.memWrite a v).addr = s.addr := rfl
@[simp] theorem State.memWrite_len (a : Nat) (v : List Byte) : (s.memWrite a v).len = s.len := rfl
@[simp] theorem State.memWrite_rlen (a : Nat) (v : List Byte) : (s.memWrite a v).rlen = s.rlen := rfl
@[simp] theorem State.memWrite_bufsz (a : Nat) (v : List Byte) : (s.memWrite a v).bufsz = s.bufsz := rfl
@[simp] theorem State.memWrite_buf (a : Nat) (v : List Byte) : (s.memWrite a v).buf = s.buf.writeBytes a v := rfl
@[simp] theorem State.memWrite_rk (a : Nat) (v : List Byte) : (s.memWrite a v).rk = s.rk := rfl
@[simp] theorem State.memWrite_pend (a : Nat) (v : List Byte) : (s.memWrite a v).pend = s.pend := rfl
@[simp] theorem State.memWrite_epoch (a : Nat) (v : List Byte) : (s.memWrite a v).epoch = s.epoch := rfl
@[simp] theorem State.memWrite_agenda (a : Nat) (v : List Byte) : (s.memWrite a v).agenda = s.agenda := rfl
@[simp] theorem State.memWrite_response (a : Nat) (v : List Byte) : (s.memWrite a v).response = s.response := rfl

@[simp] theorem State.accept_cmd (w : Word32) : (s.accept w).cmd = w := rfl
@[simp] theorem State.accept_busy (w : Word32) : (s.accept w).busy = true := rfl
@[simp] theorem State.accept_done (w : Word32) : (s.accept w).done = false := rfl
@[simp] theorem State.accept_ovr (w : Word32) : (s.accept w).ovr = s.ovr := rfl
@[simp] theorem State.accept_errcode (w : Word32) : (s.accept w).errcode = .noError := rfl
@[simp] theorem State.accept_ksv (w : Word32) : (s.accept w).ksv = s.ksv := rfl
@[simp] theorem State.accept_doneie (w : Word32) : (s.accept w).doneie = s.doneie := rfl
@[simp] theorem State.accept_key (w : Word32) : (s.accept w).key = s.key := rfl
@[simp] theorem State.accept_iv (w : Word32) : (s.accept w).iv = s.iv := rfl
@[simp] theorem State.accept_addr (w : Word32) : (s.accept w).addr = s.addr := rfl
@[simp] theorem State.accept_len (w : Word32) : (s.accept w).len = s.len := rfl
@[simp] theorem State.accept_rlen (w : Word32) : (s.accept w).rlen = s.rlen := rfl
@[simp] theorem State.accept_bufsz (w : Word32) : (s.accept w).bufsz = s.bufsz := rfl
@[simp] theorem State.accept_buf (w : Word32) : (s.accept w).buf = s.buf := rfl
@[simp] theorem State.accept_rk (w : Word32) : (s.accept w).rk = s.rk := rfl
@[simp] theorem State.accept_pend (w : Word32) : (s.accept w).pend = some (s.pendingOf w) := rfl
@[simp] theorem State.accept_epoch (w : Word32) : (s.accept w).epoch = s.epoch := rfl
@[simp] theorem State.accept_agenda (w : Word32) : (s.accept w).agenda = s.agenda := rfl
@[simp] theorem State.accept_response (w : Word32) : (s.accept w).response = s.response := rfl

@[simp] theorem State.complete_cmd (c : ErrCode) (r : Nat) : (s.complete c r).cmd = s.cmd := rfl
@[simp] theorem State.complete_busy (c : ErrCode) (r : Nat) : (s.complete c r).busy = false := rfl
@[simp] theorem State.complete_done (c : ErrCode) (r : Nat) : (s.complete c r).done = true := rfl
@[simp] theorem State.complete_ovr (c : ErrCode) (r : Nat) : (s.complete c r).ovr = s.ovr := rfl
@[simp] theorem State.complete_errcode (c : ErrCode) (r : Nat) : (s.complete c r).errcode = c := rfl
@[simp] theorem State.complete_ksv (c : ErrCode) (r : Nat) : (s.complete c r).ksv = s.ksv := rfl
@[simp] theorem State.complete_doneie (c : ErrCode) (r : Nat) : (s.complete c r).doneie = s.doneie := rfl
@[simp] theorem State.complete_key (c : ErrCode) (r : Nat) : (s.complete c r).key = s.key := rfl
@[simp] theorem State.complete_iv (c : ErrCode) (r : Nat) : (s.complete c r).iv = s.iv := rfl
@[simp] theorem State.complete_addr (c : ErrCode) (r : Nat) : (s.complete c r).addr = s.addr := rfl
@[simp] theorem State.complete_len (c : ErrCode) (r : Nat) : (s.complete c r).len = s.len := rfl
@[simp] theorem State.complete_rlen (c : ErrCode) (r : Nat) : (s.complete c r).rlen = BitVec.ofNat 32 r := rfl
@[simp] theorem State.complete_bufsz (c : ErrCode) (r : Nat) : (s.complete c r).bufsz = s.bufsz := rfl
@[simp] theorem State.complete_buf (c : ErrCode) (r : Nat) : (s.complete c r).buf = s.buf := rfl
@[simp] theorem State.complete_rk (c : ErrCode) (r : Nat) : (s.complete c r).rk = s.rk := rfl
@[simp] theorem State.complete_pend (c : ErrCode) (r : Nat) : (s.complete c r).pend = none := rfl
@[simp] theorem State.complete_epoch (c : ErrCode) (r : Nat) : (s.complete c r).epoch = s.epoch := rfl
@[simp] theorem State.complete_agenda (c : ErrCode) (r : Nat) : (s.complete c r).agenda = s.agenda := rfl
@[simp] theorem State.complete_response (c : ErrCode) (r : Nat) : (s.complete c r).response = s.response := rfl

@[simp] theorem State.finish_cmd (r : Nat) : (s.finish r).cmd = s.cmd := rfl
@[simp] theorem State.finish_busy (r : Nat) : (s.finish r).busy = false := rfl
@[simp] theorem State.finish_done (r : Nat) : (s.finish r).done = true := rfl
@[simp] theorem State.finish_ovr (r : Nat) : (s.finish r).ovr = s.ovr := rfl
@[simp] theorem State.finish_errcode (r : Nat) : (s.finish r).errcode = .noError := rfl
@[simp] theorem State.finish_ksv (r : Nat) : (s.finish r).ksv = s.ksv := rfl
@[simp] theorem State.finish_doneie (r : Nat) : (s.finish r).doneie = s.doneie := rfl
@[simp] theorem State.finish_key (r : Nat) : (s.finish r).key = s.key := rfl
@[simp] theorem State.finish_iv (r : Nat) : (s.finish r).iv = s.iv := rfl
@[simp] theorem State.finish_addr (r : Nat) : (s.finish r).addr = s.addr := rfl
@[simp] theorem State.finish_len (r : Nat) : (s.finish r).len = s.len := rfl
@[simp] theorem State.finish_rlen (r : Nat) : (s.finish r).rlen = BitVec.ofNat 32 r := rfl
@[simp] theorem State.finish_bufsz (r : Nat) : (s.finish r).bufsz = s.bufsz := rfl
@[simp] theorem State.finish_buf (r : Nat) : (s.finish r).buf = s.buf := rfl
@[simp] theorem State.finish_rk (r : Nat) : (s.finish r).rk = s.rk := rfl
@[simp] theorem State.finish_pend (r : Nat) : (s.finish r).pend = none := rfl
@[simp] theorem State.finish_epoch (r : Nat) : (s.finish r).epoch = s.epoch := rfl
@[simp] theorem State.finish_agenda (r : Nat) : (s.finish r).agenda = s.agenda := rfl
@[simp] theorem State.finish_response (r : Nat) : (s.finish r).response = s.response := rfl

@[simp] theorem State.raise_cmd (c : ErrCode) : (s.raise c).cmd = s.cmd := rfl
@[simp] theorem State.raise_busy (c : ErrCode) : (s.raise c).busy = false := rfl
@[simp] theorem State.raise_done (c : ErrCode) : (s.raise c).done = true := rfl
@[simp] theorem State.raise_ovr (c : ErrCode) : (s.raise c).ovr = s.ovr := rfl
@[simp] theorem State.raise_errcode (c : ErrCode) : (s.raise c).errcode = c := rfl
@[simp] theorem State.raise_ksv (c : ErrCode) : (s.raise c).ksv = s.ksv := rfl
@[simp] theorem State.raise_doneie (c : ErrCode) : (s.raise c).doneie = s.doneie := rfl
@[simp] theorem State.raise_key (c : ErrCode) : (s.raise c).key = s.key := rfl
@[simp] theorem State.raise_iv (c : ErrCode) : (s.raise c).iv = s.iv := rfl
@[simp] theorem State.raise_addr (c : ErrCode) : (s.raise c).addr = s.addr := rfl
@[simp] theorem State.raise_len (c : ErrCode) : (s.raise c).len = s.len := rfl
@[simp] theorem State.raise_rlen (c : ErrCode) : (s.raise c).rlen = 0#32 := rfl
@[simp] theorem State.raise_bufsz (c : ErrCode) : (s.raise c).bufsz = s.bufsz := rfl
@[simp] theorem State.raise_buf (c : ErrCode) : (s.raise c).buf = s.buf := rfl
@[simp] theorem State.raise_rk (c : ErrCode) : (s.raise c).rk = s.rk := rfl
@[simp] theorem State.raise_pend (c : ErrCode) : (s.raise c).pend = none := rfl
@[simp] theorem State.raise_epoch (c : ErrCode) : (s.raise c).epoch = s.epoch := rfl
@[simp] theorem State.raise_agenda (c : ErrCode) : (s.raise c).agenda = s.agenda := rfl
@[simp] theorem State.raise_response (c : ErrCode) : (s.raise c).response = s.response := rfl

@[simp] theorem State.loadSchedule_cmd : (s.loadSchedule).cmd = s.cmd := rfl
@[simp] theorem State.loadSchedule_busy : (s.loadSchedule).busy = s.busy := rfl
@[simp] theorem State.loadSchedule_done : (s.loadSchedule).done = s.done := rfl
@[simp] theorem State.loadSchedule_ovr : (s.loadSchedule).ovr = s.ovr := rfl
@[simp] theorem State.loadSchedule_errcode : (s.loadSchedule).errcode = s.errcode := rfl
@[simp] theorem State.loadSchedule_ksv : (s.loadSchedule).ksv = true := rfl
@[simp] theorem State.loadSchedule_doneie : (s.loadSchedule).doneie = s.doneie := rfl
@[simp] theorem State.loadSchedule_key : (s.loadSchedule).key = s.key := rfl
@[simp] theorem State.loadSchedule_iv : (s.loadSchedule).iv = s.iv := rfl
@[simp] theorem State.loadSchedule_addr : (s.loadSchedule).addr = s.addr := rfl
@[simp] theorem State.loadSchedule_len : (s.loadSchedule).len = s.len := rfl
@[simp] theorem State.loadSchedule_rlen : (s.loadSchedule).rlen = s.rlen := rfl
@[simp] theorem State.loadSchedule_bufsz : (s.loadSchedule).bufsz = s.bufsz := rfl
@[simp] theorem State.loadSchedule_buf : (s.loadSchedule).buf = s.buf := rfl
@[simp] theorem State.loadSchedule_rk : (s.loadSchedule).rk = expand s.keyBytes := rfl
@[simp] theorem State.loadSchedule_pend : (s.loadSchedule).pend = s.pend := rfl
@[simp] theorem State.loadSchedule_epoch : (s.loadSchedule).epoch = s.epoch := rfl
@[simp] theorem State.loadSchedule_agenda : (s.loadSchedule).agenda = s.agenda := rfl
@[simp] theorem State.loadSchedule_response : (s.loadSchedule).response = s.response := rfl

@[simp] theorem State.writeStatus_cmd (w : Word32) : (s.writeStatus w).cmd = s.cmd := rfl
@[simp] theorem State.writeStatus_busy (w : Word32) : (s.writeStatus w).busy = s.busy := rfl
@[simp] theorem State.writeStatus_done (w : Word32) : (s.writeStatus w).done = (s.done && !w.getLsbD 1) := rfl
@[simp] theorem State.writeStatus_ovr (w : Word32) : (s.writeStatus w).ovr = (s.ovr && !w.getLsbD 2) := rfl
@[simp] theorem State.writeStatus_errcode (w : Word32) : (s.writeStatus w).errcode = s.errcode := rfl
@[simp] theorem State.writeStatus_ksv (w : Word32) : (s.writeStatus w).ksv = s.ksv := rfl
@[simp] theorem State.writeStatus_doneie (w : Word32) : (s.writeStatus w).doneie = s.doneie := rfl
@[simp] theorem State.writeStatus_key (w : Word32) : (s.writeStatus w).key = s.key := rfl
@[simp] theorem State.writeStatus_iv (w : Word32) : (s.writeStatus w).iv = s.iv := rfl
@[simp] theorem State.writeStatus_addr (w : Word32) : (s.writeStatus w).addr = s.addr := rfl
@[simp] theorem State.writeStatus_len (w : Word32) : (s.writeStatus w).len = s.len := rfl
@[simp] theorem State.writeStatus_rlen (w : Word32) : (s.writeStatus w).rlen = s.rlen := rfl
@[simp] theorem State.writeStatus_bufsz (w : Word32) : (s.writeStatus w).bufsz = s.bufsz := rfl
@[simp] theorem State.writeStatus_buf (w : Word32) : (s.writeStatus w).buf = s.buf := rfl
@[simp] theorem State.writeStatus_rk (w : Word32) : (s.writeStatus w).rk = s.rk := rfl
@[simp] theorem State.writeStatus_pend (w : Word32) : (s.writeStatus w).pend = s.pend := rfl
@[simp] theorem State.writeStatus_epoch (w : Word32) : (s.writeStatus w).epoch = s.epoch := rfl
@[simp] theorem State.writeStatus_agenda (w : Word32) : (s.writeStatus w).agenda = s.agenda := rfl
@[simp] theorem State.writeStatus_response (w : Word32) : (s.writeStatus w).response = s.response := rfl

@[simp] theorem State.writeInten_cmd (w : Word32) : (s.writeInten w).cmd = s.cmd := rfl
@[simp] theorem State.writeInten_busy (w : Word32) : (s.writeInten w).busy = s.busy := rfl
@[simp] theorem State.writeInten_done (w : Word32) : (s.writeInten w).done = s.done := rfl
@[simp] theorem State.writeInten_ovr (w : Word32) : (s.writeInten w).ovr = s.ovr := rfl
@[simp] theorem State.writeInten_errcode (w : Word32) : (s.writeInten w).errcode = s.errcode := rfl
@[simp] theorem State.writeInten_ksv (w : Word32) : (s.writeInten w).ksv = s.ksv := rfl
@[simp] theorem State.writeInten_doneie (w : Word32) : (s.writeInten w).doneie = w.getLsbD 0 := rfl
@[simp] theorem State.writeInten_key (w : Word32) : (s.writeInten w).key = s.key := rfl
@[simp] theorem State.writeInten_iv (w : Word32) : (s.writeInten w).iv = s.iv := rfl
@[simp] theorem State.writeInten_addr (w : Word32) : (s.writeInten w).addr = s.addr := rfl
@[simp] theorem State.writeInten_len (w : Word32) : (s.writeInten w).len = s.len := rfl
@[simp] theorem State.writeInten_rlen (w : Word32) : (s.writeInten w).rlen = s.rlen := rfl
@[simp] theorem State.writeInten_bufsz (w : Word32) : (s.writeInten w).bufsz = s.bufsz := rfl
@[simp] theorem State.writeInten_buf (w : Word32) : (s.writeInten w).buf = s.buf := rfl
@[simp] theorem State.writeInten_rk (w : Word32) : (s.writeInten w).rk = s.rk := rfl
@[simp] theorem State.writeInten_pend (w : Word32) : (s.writeInten w).pend = s.pend := rfl
@[simp] theorem State.writeInten_epoch (w : Word32) : (s.writeInten w).epoch = s.epoch := rfl
@[simp] theorem State.writeInten_agenda (w : Word32) : (s.writeInten w).agenda = s.agenda := rfl
@[simp] theorem State.writeInten_response (w : Word32) : (s.writeInten w).response = s.response := rfl

@[simp] theorem State.resetStep_cmd : (s.resetStep).cmd = State.reset.cmd := rfl
@[simp] theorem State.resetStep_busy : (s.resetStep).busy = State.reset.busy := rfl
@[simp] theorem State.resetStep_done : (s.resetStep).done = State.reset.done := rfl
@[simp] theorem State.resetStep_ovr : (s.resetStep).ovr = State.reset.ovr := rfl
@[simp] theorem State.resetStep_errcode : (s.resetStep).errcode = State.reset.errcode := rfl
@[simp] theorem State.resetStep_ksv : (s.resetStep).ksv = State.reset.ksv := rfl
@[simp] theorem State.resetStep_doneie : (s.resetStep).doneie = State.reset.doneie := rfl
@[simp] theorem State.resetStep_key : (s.resetStep).key = State.reset.key := rfl
@[simp] theorem State.resetStep_iv : (s.resetStep).iv = State.reset.iv := rfl
@[simp] theorem State.resetStep_addr : (s.resetStep).addr = State.reset.addr := rfl
@[simp] theorem State.resetStep_len : (s.resetStep).len = State.reset.len := rfl
@[simp] theorem State.resetStep_rlen : (s.resetStep).rlen = State.reset.rlen := rfl
@[simp] theorem State.resetStep_bufsz : (s.resetStep).bufsz = s.bufsz := rfl
@[simp] theorem State.resetStep_buf : (s.resetStep).buf = State.reset.buf := rfl
@[simp] theorem State.resetStep_rk : (s.resetStep).rk = State.reset.rk := rfl
@[simp] theorem State.resetStep_pend : (s.resetStep).pend = State.reset.pend := rfl
@[simp] theorem State.resetStep_epoch : (s.resetStep).epoch = s.epoch + 1 := rfl
@[simp] theorem State.resetStep_agenda : (s.resetStep).agenda = s.agenda := rfl
@[simp] theorem State.resetStep_response : (s.resetStep).response = State.reset.response := rfl

@[simp] theorem State.issue_cmd (w : Word32) : (s.issue w).cmd = w := rfl
@[simp] theorem State.issue_busy (w : Word32) : (s.issue w).busy = true := rfl
@[simp] theorem State.issue_done (w : Word32) : (s.issue w).done = false := rfl
@[simp] theorem State.issue_ovr (w : Word32) : (s.issue w).ovr = s.ovr := rfl
@[simp] theorem State.issue_errcode (w : Word32) : (s.issue w).errcode = .noError := rfl
@[simp] theorem State.issue_ksv (w : Word32) : (s.issue w).ksv = s.ksv := rfl
@[simp] theorem State.issue_doneie (w : Word32) : (s.issue w).doneie = s.doneie := rfl
@[simp] theorem State.issue_key (w : Word32) : (s.issue w).key = s.key := rfl
@[simp] theorem State.issue_iv (w : Word32) : (s.issue w).iv = s.iv := rfl
@[simp] theorem State.issue_addr (w : Word32) : (s.issue w).addr = s.addr := rfl
@[simp] theorem State.issue_len (w : Word32) : (s.issue w).len = s.len := rfl
@[simp] theorem State.issue_rlen (w : Word32) : (s.issue w).rlen = s.rlen := rfl
@[simp] theorem State.issue_bufsz (w : Word32) : (s.issue w).bufsz = s.bufsz := rfl
@[simp] theorem State.issue_buf (w : Word32) : (s.issue w).buf = s.buf := rfl
@[simp] theorem State.issue_rk (w : Word32) : (s.issue w).rk = s.rk := rfl
@[simp] theorem State.issue_pend (w : Word32) : (s.issue w).pend = some (s.pendingOf w) := rfl
@[simp] theorem State.issue_epoch (w : Word32) : (s.issue w).epoch = s.epoch := rfl
@[simp] theorem State.issue_agenda (w : Word32) : (s.issue w).agenda = .engine :: s.agenda := rfl
@[simp] theorem State.issue_response (w : Word32) : (s.issue w).response = s.response := rfl

@[simp] theorem State.answered_cmd (l : List Event) (r : BusResponse) : (s.answered l r).cmd = s.cmd := rfl
@[simp] theorem State.answered_busy (l : List Event) (r : BusResponse) : (s.answered l r).busy = s.busy := rfl
@[simp] theorem State.answered_done (l : List Event) (r : BusResponse) : (s.answered l r).done = s.done := rfl
@[simp] theorem State.answered_ovr (l : List Event) (r : BusResponse) : (s.answered l r).ovr = s.ovr := rfl
@[simp] theorem State.answered_errcode (l : List Event) (r : BusResponse) : (s.answered l r).errcode = s.errcode := rfl
@[simp] theorem State.answered_ksv (l : List Event) (r : BusResponse) : (s.answered l r).ksv = s.ksv := rfl
@[simp] theorem State.answered_doneie (l : List Event) (r : BusResponse) : (s.answered l r).doneie = s.doneie := rfl
@[simp] theorem State.answered_key (l : List Event) (r : BusResponse) : (s.answered l r).key = s.key := rfl
@[simp] theorem State.answered_iv (l : List Event) (r : BusResponse) : (s.answered l r).iv = s.iv := rfl
@[simp] theorem State.answered_addr (l : List Event) (r : BusResponse) : (s.answered l r).addr = s.addr := rfl
@[simp] theorem State.answered_len (l : List Event) (r : BusResponse) : (s.answered l r).len = s.len := rfl
@[simp] theorem State.answered_rlen (l : List Event) (r : BusResponse) : (s.answered l r).rlen = s.rlen := rfl
@[simp] theorem State.answered_bufsz (l : List Event) (r : BusResponse) : (s.answered l r).bufsz = s.bufsz := rfl
@[simp] theorem State.answered_buf (l : List Event) (r : BusResponse) : (s.answered l r).buf = s.buf := rfl
@[simp] theorem State.answered_rk (l : List Event) (r : BusResponse) : (s.answered l r).rk = s.rk := rfl
@[simp] theorem State.answered_pend (l : List Event) (r : BusResponse) : (s.answered l r).pend = s.pend := rfl
@[simp] theorem State.answered_epoch (l : List Event) (r : BusResponse) : (s.answered l r).epoch = s.epoch := rfl
@[simp] theorem State.answered_agenda (l : List Event) (r : BusResponse) : (s.answered l r).agenda = l := rfl
@[simp] theorem State.answered_response (l : List Event) (r : BusResponse) : (s.answered l r).response = some r := rfl

@[simp] theorem State.writeBack_cmd : s.writeBack.cmd = s.cmd := by
  unfold State.writeBack; split <;> rfl
@[simp] theorem State.writeBack_busy : s.writeBack.busy = s.busy := by
  unfold State.writeBack; split <;> rfl
@[simp] theorem State.writeBack_done : s.writeBack.done = s.done := by
  unfold State.writeBack; split <;> rfl
@[simp] theorem State.writeBack_ovr : s.writeBack.ovr = s.ovr := by
  unfold State.writeBack; split <;> rfl
@[simp] theorem State.writeBack_errcode : s.writeBack.errcode = s.errcode := by
  unfold State.writeBack; split <;> rfl
@[simp] theorem State.writeBack_doneie : s.writeBack.doneie = s.doneie := by
  unfold State.writeBack; split <;> rfl
@[simp] theorem State.writeBack_key : s.writeBack.key = s.key := by
  unfold State.writeBack; split <;> rfl
@[simp] theorem State.writeBack_iv : s.writeBack.iv = s.iv := by
  unfold State.writeBack; split <;> rfl
@[simp] theorem State.writeBack_addr : s.writeBack.addr = s.addr := by
  unfold State.writeBack; split <;> rfl
@[simp] theorem State.writeBack_len : s.writeBack.len = s.len := by
  unfold State.writeBack; split <;> rfl
@[simp] theorem State.writeBack_rlen : s.writeBack.rlen = s.rlen := by
  unfold State.writeBack; split <;> rfl
@[simp] theorem State.writeBack_bufsz : s.writeBack.bufsz = s.bufsz := by
  unfold State.writeBack; split <;> rfl
@[simp] theorem State.writeBack_buf : s.writeBack.buf = s.buf := by
  unfold State.writeBack; split <;> rfl
@[simp] theorem State.writeBack_pend : s.writeBack.pend = s.pend := by
  unfold State.writeBack; split <;> rfl
@[simp] theorem State.writeBack_epoch : s.writeBack.epoch = s.epoch := by
  unfold State.writeBack; split <;> rfl
@[simp] theorem State.writeBack_agenda : s.writeBack.agenda = s.agenda := by
  unfold State.writeBack; split <;> rfl
@[simp] theorem State.writeBack_response : s.writeBack.response = s.response := by
  unfold State.writeBack; split <;> rfl

/-- After the write-back KSV is 1, whatever it was (41_speck.md R179). -/
@[simp] theorem State.writeBack_ksv : s.writeBack.ksv = true := by
  unfold State.writeBack; split <;> simp_all

/-- After the write-back RK is the schedule the command used (R179). -/
@[simp] theorem State.writeBack_rk : s.writeBack.rk = s.schedule := by
  unfold State.writeBack State.schedule; split <;> simp_all

/-- A write of BUF leaves the schedule a command uses. -/
@[simp] theorem State.memWrite_schedule (a : Nat) (v : List Byte) : (s.memWrite a v).schedule = s.schedule := rfl

/-- Reading a byte depends on BUF and the draw alone. -/
theorem State.byteAt_congr {s t : State} (hb : t.buf = s.buf) (he : t.epoch = s.epoch) (a : Nat) :
    t.byteAt a = s.byteAt a := by
  simp [State.byteAt, State.unwrittenByte, hb, he]

/-- Reading bytes depends on BUF and the draw alone. -/
theorem State.memRead_congr {s t : State} (hb : t.buf = s.buf) (he : t.epoch = s.epoch) (a n : Nat) :
    t.memRead a n = s.memRead a n := by
  induction n generalizing a with
  | zero => rfl
  | succ n ih => simp [State.memRead, ih, State.byteAt_congr hb he]

/-- An error completion is `State.errorState`. -/
theorem State.raise_eq_errorState (c : ErrCode) : s.raise c = s.errorState c none := rfl

end Sys2Proof.Machine
end

