-- ==== Sys2Proof/Laws/Memory.lean ====
section
/-! SUPPORT. The laws of BUF: read after write, the canonical form, and the bytes a range read or written holds. -/

namespace Sys2Proof.Machine

/-- A byte read after one byte is written. -/
theorem Memory.read_write (m : Memory) (a : Nat) (v : Byte) (b : Nat) :
    (m.write a v).read b = if b = a then some v else m.read b := by
  induction m with
  | nil => simp [Memory.write, Memory.read, eq_comm]
  | cons c m ih =>
    obtain ⟨k, w⟩ := c
    simp only [Memory.write]
    split_ifs with h1 h2 <;> simp only [Memory.read, ih] <;> split_ifs <;> first | rfl | omega

/-- The keys of a memory after a write: the old ones and the address written. -/
theorem Memory.mem_write {m : Memory} {a : Nat} {v : Byte} {c : Host.Cell} (h : c ∈ m.write a v) :
    c.1 = a ∨ c ∈ m := by
  induction m with
  | nil => simp_all [Memory.write]
  | cons d m ih =>
    obtain ⟨k, w⟩ := d
    simp only [Memory.write] at h
    split_ifs at h
    · rcases List.mem_cons.mp h with h | h
      · exact .inl (by simp [h])
      · exact .inr h
    · rcases List.mem_cons.mp h with h | h
      · exact .inl (by simp [h])
      · exact .inr (List.mem_cons_of_mem _ h)
    · rcases List.mem_cons.mp h with h | h
      · exact .inr (by simp [h])
      · exact (ih h).imp id (List.mem_cons_of_mem _)

/-- A write keeps the canonical form. -/
theorem Memory.write_wf {m : Memory} (h : m.wf) (a : Nat) (v : Byte) : (m.write a v).wf := by
  induction m with
  | nil => simp [Memory.write]
  | cons c m ih =>
    obtain ⟨k, w⟩ := c
    obtain ⟨hk, hm⟩ := List.pairwise_cons.mp h
    simp only [Memory.write]
    split_ifs with h1 h2
    · refine List.pairwise_cons.mpr ⟨fun d hd => ?_, h⟩
      rcases List.mem_cons.mp hd with rfl | hd
      · exact h1
      · exact lt_trans h1 (hk d hd)
    · exact List.pairwise_cons.mpr ⟨fun d hd => h2 ▸ hk d hd, hm⟩
    · refine List.pairwise_cons.mpr ⟨fun d hd => ?_, ih hm⟩
      rcases Memory.mem_write hd with hd | hd
      · simp only [hd]; omega
      · exact hk d hd

/-- Writing a range keeps the canonical form. -/
theorem Memory.writeBytes_wf {m : Memory} (h : m.wf) (a : Nat) (bs : List Byte) : (m.writeBytes a bs).wf := by
  induction bs generalizing m a with
  | nil => exact h
  | cons b bs ih => exact ih (Memory.write_wf h a b) (a + 1)

/-- Writing a range below `n` leaves every key below `n`. -/
theorem Memory.writeBytes_bound {m : Memory} {n : Nat} (h : ∀ c ∈ m, c.1 < n) (a : Nat) (bs : List Byte)
    (hn : a + bs.length ≤ n) : ∀ c ∈ m.writeBytes a bs, c.1 < n := by
  induction bs generalizing m a with
  | nil => exact h
  | cons b bs ih =>
    simp only [List.length_cons] at hn
    refine ih (fun c hc => ?_) (a + 1) (by omega)
    rcases Memory.mem_write hc with hc | hc
    · omega
    · exact h c hc

/-- A byte read after a range is written: inside the range the byte written there, outside the byte before. -/
theorem Memory.read_writeBytes (m : Memory) (a : Nat) (bs : List Byte) (b : Nat) :
    (m.writeBytes a bs).read b = if a ≤ b ∧ b < a + bs.length then bs[b - a]? else m.read b := by
  induction bs generalizing m a with
  | nil => simp [Memory.writeBytes]
  | cons v bs ih =>
    rw [Memory.writeBytes, ih, Memory.read_write]
    simp only [List.length_cons]
    by_cases hb : b = a
    · subst hb; simp
    · by_cases h1 : a + 1 ≤ b ∧ b < a + 1 + bs.length
      · rw [if_pos h1, if_pos (by omega), show b - a = (b - (a + 1)) + 1 by omega, List.getElem?_cons_succ]
      · rw [if_neg h1, if_neg hb, if_neg (by omega)]

variable (s : State)

/-- `BUF[b]` inside a range just written. -/
theorem State.byteAt_memWrite_inside (a : Nat) (v : List Byte) (j : Nat) (hj : j < v.length) :
    (s.memWrite a v).byteAt (a + j) = v[j] := by
  have : a ≤ a + j ∧ a + j < a + v.length := ⟨Nat.le_add_right _ _, by omega⟩
  simp [State.byteAt, Memory.read_writeBytes, hj]

/-- `BUF[b]` outside a range just written. -/
theorem State.byteAt_memWrite_outside (a : Nat) (v : List Byte) (b : Nat)
    (hb : b < a ∨ a + v.length ≤ b) : (s.memWrite a v).byteAt b = s.byteAt b := by
  have : ¬(a ≤ b ∧ b < a + v.length) := by omega
  simp [State.byteAt, Memory.read_writeBytes, this, State.unwrittenByte]

/-- A range read has the length asked for. -/
@[simp] theorem State.memRead_length (a n : Nat) : (s.memRead a n).length = n := by
  induction n generalizing a with
  | zero => rfl
  | succ n ih => simp [State.memRead, ih]

/-- Entry `j` of a range read is `BUF[a + j]`. -/
@[simp] theorem State.getElem_memRead (a n j : Nat) (h : j < (s.memRead a n).length) :
    (s.memRead a n)[j] = s.byteAt (a + j) := by
  induction n generalizing a j with
  | zero => simp at h
  | succ n ih =>
    cases j with
    | zero => rfl
    | succ j =>
      have := ih (a + 1) j (by simpa [State.memRead] using h)
      simp only [State.memRead, List.getElem_cons_succ, this]
      congr 1; omega

/-- A range read back after it is written. -/
theorem State.memRead_memWrite (a : Nat) (v : List Byte) :
    (s.memWrite a v).memRead a v.length = v :=
  List.ext_getElem (by simp) fun j hj hv => by rw [State.getElem_memRead, State.byteAt_memWrite_inside s a v j hv]

/-- A range read outside the range written is unchanged. -/
theorem State.memRead_memWrite_outside (a : Nat) (v : List Byte) (b n : Nat)
    (hb : b + n ≤ a ∨ a + v.length ≤ b) : (s.memWrite a v).memRead b n = s.memRead b n :=
  List.ext_getElem (by simp) fun j hj _ => by
    have : j < n := by simpa using hj
    rw [State.getElem_memRead, State.getElem_memRead, State.byteAt_memWrite_outside s a v _ (by omega)]

end Sys2Proof.Machine
end

