-- ==== Sys2Proof/Laws/Bytes.lean ====
section
/-! SUPPORT. Lengths and round trips of the byte packing, the cipher, the padding and the chaining. -/

namespace Sys2Proof.Machine

@[simp] theorem bytesOfNat_length (count n : Nat) : (bytesOfNat count n).length = count := by
  induction count generalizing n with
  | zero => rfl
  | succ count ih => simp [bytesOfNat, ih]

/-- A number spelt in enough bytes and read back. -/
theorem natOfBytes_bytesOfNat (count n : Nat) (h : n < 256 ^ count) : natOfBytes (bytesOfNat count n) = n := by
  induction count generalizing n with
  | zero => simp at h; simp [bytesOfNat, natOfBytes, h]
  | succ count ih =>
    have : n / 256 < 256 ^ count := by rw [Nat.div_lt_iff_lt_mul (by decide)]; simpa [Nat.pow_succ] using h
    simp [bytesOfNat, natOfBytes, ih _ this]; omega

/-- The number a byte sequence spells is below 256 to its length. -/
theorem natOfBytes_lt (b : List Byte) : natOfBytes b < 256 ^ b.length := by
  induction b with
  | nil => simp [natOfBytes]
  | cons v b ih =>
    have := v.isLt
    simp only [natOfBytes, List.length_cons, Nat.pow_succ]; omega

/-- Bytes read as a number and spelt again. -/
theorem bytesOfNat_natOfBytes (b : List Byte) : bytesOfNat b.length (natOfBytes b) = b := by
  induction b with
  | nil => rfl
  | cons v b ih =>
    have := v.isLt
    simp only [natOfBytes, List.length_cons, bytesOfNat]
    rw [show (v.toNat + 256 * natOfBytes b) / 256 = natOfBytes b by omega, ih]
    congr 1
    exact BitVec.eq_of_toNat_eq (by simp; omega)

@[simp] theorem bytesLe32_length (w : Word32) : (bytesLe32 w).length = 4 := by simp [bytesLe32]

@[simp] theorem bytesLe64_length (w : Word64) : (bytesLe64 w).length = 8 := by simp [bytesLe64]

@[simp] theorem Words4.bytes_length (q : Words4) : q.bytes.length = 16 := by simp [Words4.bytes]

theorem le64_bytesLe64 (w : Word64) : le64 (bytesLe64 w) = w := by
  have : w.toNat < 256 ^ 8 := w.isLt
  simp [le64, bytesLe64, natOfBytes_bytesOfNat _ _ this]

theorem bytesLe64_le64 (b : List Byte) (h : b.length = 8) : bytesLe64 (le64 b) = b := by
  have hb : natOfBytes b < 2 ^ 64 := by have := natOfBytes_lt b; rwa [h] at this
  have := bytesOfNat_natOfBytes b
  rw [h] at this
  simp only [bytesLe64, le64, BitVec.toNat_ofNat, Nat.mod_eq_of_lt hb, this]

theorem le32_bytesLe32 (w : Word32) : le32 (bytesLe32 w) = w := by
  have : w.toNat < 256 ^ 4 := w.isLt
  simp [le32, bytesLe32, natOfBytes_bytesOfNat _ _ this]

@[simp] theorem fromWords_length (xy : Word64 × Word64) : (fromWords xy).length = 16 := by simp [fromWords]

@[simp] theorem encrypt_length (rk : Vector Word64 32) (b : List Byte) : (encrypt rk b).length = 16 := by
  simp [encrypt]

@[simp] theorem decrypt_length (rk : Vector Word64 32) (b : List Byte) : (decrypt rk b).length = 16 := by
  simp [decrypt]

@[simp] theorem xorBlock_length (p q : List Byte) : (xorBlock p q).length = min p.length q.length := by
  simp [xorBlock]

/-- 42_padding.md R220. -/
theorem padLen_pos (L bl : Nat) (h : 0 < bl) : 0 < padLen L bl := by
  have := Nat.mod_lt L h
  unfold padLen; omega

theorem padLen_le (L bl : Nat) : padLen L bl ≤ bl := Nat.sub_le _ _

/-- A padded message is a whole number of blocks (42_padding.md R230). -/
theorem add_padLen_mod (L bl : Nat) (h : 0 < bl) : (L + padLen L bl) % bl = 0 := by
  have h1 := Nat.mod_lt L h
  have h2 := Nat.div_add_mod L bl
  have : L + padLen L bl = bl * (L / bl + 1) := by unfold padLen; rw [Nat.mul_add]; omega
  simp [this]

@[simp] theorem padBytes_length (sch : Scheme) (n : Nat) (h : 0 < n) : (padBytes sch n).length = n := by
  cases sch <;> simp [padBytes, padBytesP7, padBytesX9]; omega

theorem cbcEncFrom_length (rk : Vector Word64 32) (count : Nat) (chain P : List Byte) :
    (cbcEncFrom rk count chain P).length = 16 * count := by
  induction count generalizing chain P with
  | zero => rfl
  | succ count ih => simp [cbcEncFrom, ih]; omega

theorem cbcDecFrom_length (rk : Vector Word64 32) (count : Nat) (chain C : List Byte) (hc : chain.length = 16)
    (hC : 16 * count ≤ C.length) : (cbcDecFrom rk count chain C).length = 16 * count := by
  induction count generalizing chain C with
  | zero => rfl
  | succ count ih =>
    rw [cbcDecFrom, List.length_append, ih _ _ (by simp; omega) (by simp; omega)]
    simp [hc]; omega

/-- Encrypting whole blocks keeps the length (43_cbc.md R260). -/
theorem cbcEnc_length (rk : Vector Word64 32) (iv P : List Byte) (h : P.length % 16 = 0) :
    (cbcEnc rk iv P).length = P.length := by
  rw [cbcEnc, cbcEncFrom_length]; omega

/-- Decrypting whole blocks keeps the length (43_cbc.md R261). -/
theorem cbcDec_length (rk : Vector Word64 32) (iv C : List Byte) (hiv : iv.length = 16) (h : C.length % 16 = 0) :
    (cbcDec rk iv C).length = C.length := by
  rw [cbcDec, cbcDecFrom_length _ _ _ _ hiv] <;> omega

/-- An unpadded length is at most the padded one (42_padding.md R224, R225). -/
theorem unpad_le {sch : Scheme} {D : List Byte} {m : Nat} (h : unpad sch D = some m) : m ≤ D.length := by
  unfold unpad at h
  split at h
  · cases h
  · split_ifs at h; simp only [Option.some.injEq] at h; omega

@[simp] theorem State.keyBytes_length (s : State) : s.keyBytes.length = 16 := Words4.bytes_length _

@[simp] theorem State.ivBytes_length (s : State) : s.ivBytes.length = 16 := Words4.bytes_length _

@[simp] theorem State.blockAt_length (s : State) (a : Nat) : (s.blockAt a).length = 16 := State.memRead_length _ _ _

end Sys2Proof.Machine
end

