-- ==== Sys2Proof/Laws/Commands.lean ====
section
/-! SUPPORT. What each shared command body, the engine's turn and a step can do, said once. -/

namespace Sys2Proof.Machine

/-- Under the cache invariant the schedule a command uses is the expansion of KEY (41_speck.md R177). -/
theorem State.schedule_eq {s : State} (h : s.KeyCacheValid) : s.schedule = expand s.keyBytes := by
  unfold State.schedule; split
  · exact h ‹_›
  · rfl

/-- `fits` as an inequality (60_exceptions.md R301). -/
@[simp] theorem State.fits_iff (s : State) (e : Nat) : s.fits e = true ↔ e ≤ s.bufSize := by
  simp [State.fits]

variable (s : State)

/-- The two outcomes of ENCB and DECB (41_speck.md R181, R182). -/
theorem State.cipherBlock_cases (f : Vector Word64 32 → List Byte → List Byte) :
    (s.operandAddr + 16 ≤ s.bufSize ∧ s.cipherBlock f =
      ((s.memWrite s.operandAddr (f s.schedule (s.blockAt s.operandAddr))).writeBack).finish 16) ∨
    (s.bufSize < s.operandAddr + 16 ∧ s.cipherBlock f = s.raise .range) := by
  by_cases h : s.operandAddr + 16 ≤ s.bufSize
  · exact .inl ⟨h, by simp [State.cipherBlock, State.fits_iff, h]⟩
  · exact .inr ⟨not_le.mp h, by simp [State.cipherBlock, State.fits_iff, h]⟩

/-- The three outcomes of PAD (42_padding.md R226, R227). -/
theorem State.padMessage_cases (sch : Scheme) (bl : Nat) :
    (bl = 0 ∧ s.padMessage sch bl = s.raise .config) ∨
    (0 < bl ∧ s.operandAddr + s.operandLen + padLen s.operandLen bl ≤ s.bufSize ∧
      s.padMessage sch bl = (s.memWrite (s.operandAddr + s.operandLen)
        (padBytes sch (padLen s.operandLen bl))).finish (s.operandLen + padLen s.operandLen bl)) ∨
    (0 < bl ∧ s.bufSize < s.operandAddr + s.operandLen + padLen s.operandLen bl ∧
      s.padMessage sch bl = s.raise .range) := by
  rcases Nat.eq_zero_or_pos bl with h0 | h0
  · exact .inl ⟨h0, by simp [State.padMessage, h0]⟩
  by_cases h : s.operandAddr + s.operandLen + padLen s.operandLen bl ≤ s.bufSize
  · exact .inr (.inl ⟨h0, h, by simp [State.padMessage, State.fits_iff, h, h0.ne']⟩)
  · exact .inr (.inr ⟨h0, not_le.mp h, by simp [State.padMessage, State.fits_iff, h, h0.ne']⟩)

/-- The five outcomes of UNPAD (42_padding.md R228, R229). -/
theorem State.unpadMessage_cases (sch : Scheme) (bl : Nat) :
    (bl = 0 ∧ s.unpadMessage sch bl = s.raise .config) ∨
    (0 < bl ∧ s.bufSize < s.operandAddr + s.operandLen ∧ s.unpadMessage sch bl = s.raise .range) ∨
    (0 < bl ∧ s.operandAddr + s.operandLen ≤ s.bufSize ∧ (s.operandLen = 0 ∨ s.operandLen % bl ≠ 0) ∧
      s.unpadMessage sch bl = s.raise .wctl) ∨
    (0 < bl ∧ s.operandAddr + s.operandLen ≤ s.bufSize ∧ s.operandLen ≠ 0 ∧ s.operandLen % bl = 0 ∧
      unpad sch (s.memRead s.operandAddr s.operandLen) = none ∧ s.unpadMessage sch bl = s.raise .wpad) ∨
    (∃ m, 0 < bl ∧ s.operandAddr + s.operandLen ≤ s.bufSize ∧ s.operandLen ≠ 0 ∧ s.operandLen % bl = 0 ∧
      unpad sch (s.memRead s.operandAddr s.operandLen) = some m ∧ s.unpadMessage sch bl = s.finish m) := by
  rcases Nat.eq_zero_or_pos bl with h0 | h0
  · exact .inl ⟨h0, by simp [State.unpadMessage, h0]⟩
  refine .inr ?_
  by_cases h : s.operandAddr + s.operandLen ≤ s.bufSize
  swap; · exact .inl ⟨h0, not_le.mp h, by simp [State.unpadMessage, State.fits_iff, h, h0.ne']⟩
  refine .inr ?_
  by_cases hw : s.operandLen = 0 ∨ s.operandLen % bl ≠ 0
  · exact .inl ⟨h0, h, hw, by simp only [State.unpadMessage, State.fits_iff, h, h0.ne', hw, if_true, if_false]⟩
  refine .inr ?_
  obtain ⟨hL, hm⟩ := not_or.mp hw
  cases hu : unpad sch (s.memRead s.operandAddr s.operandLen) with
  | none => exact .inl ⟨h0, h, hL, by simpa using hm, rfl, by
      simp only [State.unpadMessage, State.fits_iff, h, h0.ne', hw, hu, if_true, if_false]⟩
  | some m => exact .inr ⟨m, h0, h, hL, by simpa using hm, rfl, by
      simp only [State.unpadMessage, State.fits_iff, h, h0.ne', hw, hu, if_true, if_false]⟩

/-- The bytes CBCENC encrypts: the message and its padding (43_cbc.md R263, R264). -/
def State.paddedMessage (sch : Scheme) : List Byte :=
  s.memRead s.operandAddr s.operandLen ++ padBytes sch (padLen s.operandLen 16)

@[simp] theorem State.paddedMessage_length (sch : Scheme) :
    (s.paddedMessage sch).length = s.operandLen + padLen s.operandLen 16 := by
  simp [State.paddedMessage, padLen_pos]

/-- The two outcomes of CBCENC (43_cbc.md R263, R264). -/
theorem State.cbcEncrypt_cases (sch : Scheme) :
    (s.operandAddr + s.operandLen + padLen s.operandLen 16 ≤ s.bufSize ∧ s.cbcEncrypt sch =
      ((s.memWrite s.operandAddr (cbcEnc s.schedule s.ivBytes (s.paddedMessage sch))).writeBack).finish
        (s.operandLen + padLen s.operandLen 16)) ∨
    (s.bufSize < s.operandAddr + s.operandLen + padLen s.operandLen 16 ∧ s.cbcEncrypt sch = s.raise .range) := by
  by_cases h : s.operandAddr + s.operandLen + padLen s.operandLen 16 ≤ s.bufSize
  · exact .inl ⟨h, by simp [State.cbcEncrypt, State.paddedMessage, h]⟩
  · exact .inr ⟨not_le.mp h, by simp [State.cbcEncrypt, State.fits_iff, h]⟩

/-- The bytes CBCDEC decrypts to (43_cbc.md R265, R266). -/
def State.decryptedMessage : List Byte :=
  cbcDec s.schedule s.ivBytes (s.memRead s.operandAddr s.operandLen)

theorem State.decryptedMessage_length (h : s.operandLen % 16 = 0) : s.decryptedMessage.length = s.operandLen := by
  rw [State.decryptedMessage, cbcDec_length _ _ _ (by simp) (by simpa using h)]; simp

/-- The four outcomes of CBCDEC (43_cbc.md R265, R266). -/
theorem State.cbcDecrypt_cases (sch : Scheme) :
    (s.bufSize < s.operandAddr + s.operandLen ∧ s.cbcDecrypt sch = s.raise .range) ∨
    (s.operandAddr + s.operandLen ≤ s.bufSize ∧ (s.operandLen % 16 ≠ 0 ∨ s.operandLen = 0) ∧
      s.cbcDecrypt sch = s.raise .wctl) ∨
    (s.operandAddr + s.operandLen ≤ s.bufSize ∧ s.operandLen % 16 = 0 ∧ s.operandLen ≠ 0 ∧
      unpad sch s.decryptedMessage = none ∧ s.cbcDecrypt sch = s.raise .wpad) ∨
    (∃ m, s.operandAddr + s.operandLen ≤ s.bufSize ∧ s.operandLen % 16 = 0 ∧ s.operandLen ≠ 0 ∧
      unpad sch s.decryptedMessage = some m ∧
      s.cbcDecrypt sch = ((s.memWrite s.operandAddr s.decryptedMessage).writeBack).finish m) := by
  by_cases h : s.operandAddr + s.operandLen ≤ s.bufSize
  swap; · exact .inl ⟨not_le.mp h, by simp [State.cbcDecrypt, State.fits_iff, h]⟩
  refine .inr ?_
  by_cases hw : s.operandLen % 16 ≠ 0 ∨ s.operandLen = 0
  · exact .inl ⟨h, hw, by simp only [State.cbcDecrypt, State.fits_iff, h, hw, if_true]⟩
  refine .inr ?_
  obtain ⟨hm, hL⟩ := not_or.mp hw
  cases hu : unpad sch s.decryptedMessage with
  | none =>
    refine .inl ⟨h, by simpa using hm, hL, rfl, ?_⟩
    rw [State.decryptedMessage] at hu
    simp only [State.cbcDecrypt, State.fits_iff, h, hw, hu, if_true, if_false]
  | some m =>
    refine .inr ⟨m, h, by simpa using hm, hL, rfl, ?_⟩
    rw [State.decryptedMessage] at hu
    simp only [State.cbcDecrypt, State.fits_iff, h, hw, hu, if_true, if_false, State.decryptedMessage]

/-- The commands that end with the schedule write-back when they succeed (41_speck.md R179). -/
def IsCipherCommand : Instr → Prop
  | .encb | .decb | .cbcencPkcs7 | .cbcencX923 | .cbcdecPkcs7 | .cbcdecX923 => True
  | .nop | .keyexp | .keyclr | .padPkcs7 _ | .padX923 _ | .unpadPkcs7 _ | .unpadX923 _ => False

/-- What any command can do: fail with a code; finish with nothing written; finish with bytes of BUF written from ADDR on
and inside it, with the write-back if it is a cipher command; load the schedule; or clear the key. -/
inductive CommandOutcome (i : Instr) (s : State) : State → Prop
  | error (c : ErrCode) (hc : c ≠ .noError) : CommandOutcome i s (s.raise c)
  | plain (r : Nat) (hr : r ≤ s.bufSize) : CommandOutcome i s (s.finish r)
  | written (a r : Nat) (v : List Byte) (ha : s.operandAddr ≤ a) (hv : a + v.length ≤ s.bufSize) (hr : r ≤ s.bufSize) :
      CommandOutcome i s ((s.memWrite a v).finish r)
  | ciphered (a r : Nat) (v : List Byte) (hi : IsCipherCommand i) (ha : s.operandAddr ≤ a)
      (hv : a + v.length ≤ s.bufSize) (hr : r ≤ s.bufSize) : CommandOutcome i s ((s.memWrite a v).writeBack.finish r)
  | expanded (hi : i = .keyexp) : CommandOutcome i s (s.loadSchedule.finish 0)
  | cleared (hi : i = .keyclr) :
      CommandOutcome i s ({ s with key := Words4.zero, rk := zeroSchedule, ksv := false }.finish 0)

theorem State.cipherBlock_outcome {i : Instr} (hi : IsCipherCommand i) (f : Vector Word64 32 → List Byte → List Byte)
    (hf : ∀ rk b, (f rk b).length = 16) : CommandOutcome i s (s.cipherBlock f) := by
  rcases s.cipherBlock_cases f with ⟨h, e⟩ | ⟨_, e⟩ <;> rw [e]
  · exact .ciphered _ _ _ hi le_rfl (by simpa [hf] using h) (by omega)
  · exact .error _ (by decide)

theorem State.padMessage_outcome (i : Instr) (sch : Scheme) (bl : Nat) : CommandOutcome i s (s.padMessage sch bl) := by
  rcases s.padMessage_cases sch bl with ⟨_, e⟩ | ⟨hb, h, e⟩ | ⟨_, _, e⟩ <;> rw [e]
  · exact .error _ (by decide)
  · exact .written _ _ _ (Nat.le_add_right _ _) (by rwa [padBytes_length _ _ (padLen_pos _ _ hb)]) (by omega)
  · exact .error _ (by decide)

theorem State.unpadMessage_outcome (i : Instr) (sch : Scheme) (bl : Nat) :
    CommandOutcome i s (s.unpadMessage sch bl) := by
  rcases s.unpadMessage_cases sch bl with ⟨_, e⟩ | ⟨_, _, e⟩ | ⟨_, _, _, e⟩ | ⟨_, _, _, _, _, e⟩ | ⟨m, _, h, _, _, hm, e⟩ <;>
    rw [e]
  iterate 4 exact .error _ (by decide)
  exact .plain _ (by have := unpad_le hm; simp only [State.memRead_length] at this; omega)

theorem State.cbcEncrypt_outcome {i : Instr} (hi : IsCipherCommand i) (sch : Scheme) :
    CommandOutcome i s (s.cbcEncrypt sch) := by
  rcases s.cbcEncrypt_cases sch with ⟨h, e⟩ | ⟨_, e⟩ <;> rw [e]
  · refine .ciphered _ _ _ hi le_rfl ?_ (by omega)
    rw [cbcEnc_length _ _ _ (by rw [State.paddedMessage_length]; exact add_padLen_mod _ 16 (by decide)),
      State.paddedMessage_length]
    omega
  · exact .error _ (by decide)

theorem State.cbcDecrypt_outcome {i : Instr} (hi : IsCipherCommand i) (sch : Scheme) :
    CommandOutcome i s (s.cbcDecrypt sch) := by
  rcases s.cbcDecrypt_cases sch with ⟨_, e⟩ | ⟨_, _, e⟩ | ⟨_, _, _, _, e⟩ | ⟨m, h, h16, _, hm, e⟩ <;> rw [e]
  iterate 3 exact .error _ (by decide)
  have hl := s.decryptedMessage_length h16
  exact .ciphered _ _ _ hi le_rfl (by rwa [hl]) (by have := unpad_le hm; omega)

/-- Every command answers a next state, one of the outcomes above (40_command_cycle.md R142 to R145). -/
theorem exec_outcome (i : Instr) : ∃ t, exec i s = .next t ∧ CommandOutcome i s t := by
  cases i with
  | nop => exact ⟨_, rfl, .plain 0 (Nat.zero_le _)⟩
  | keyexp => exact ⟨_, rfl, .expanded rfl⟩
  | encb => exact ⟨_, rfl, s.cipherBlock_outcome (i := .encb) trivial _ encrypt_length⟩
  | decb => exact ⟨_, rfl, s.cipherBlock_outcome (i := .decb) trivial _ decrypt_length⟩
  | padPkcs7 bl => exact ⟨_, rfl, s.padMessage_outcome _ _ bl⟩
  | padX923 bl => exact ⟨_, rfl, s.padMessage_outcome _ _ bl⟩
  | unpadPkcs7 bl => exact ⟨_, rfl, s.unpadMessage_outcome _ _ bl⟩
  | unpadX923 bl => exact ⟨_, rfl, s.unpadMessage_outcome _ _ bl⟩
  | cbcencPkcs7 => exact ⟨_, rfl, s.cbcEncrypt_outcome (i := .cbcencPkcs7) trivial _⟩
  | cbcencX923 => exact ⟨_, rfl, s.cbcEncrypt_outcome (i := .cbcencX923) trivial _⟩
  | cbcdecPkcs7 => exact ⟨_, rfl, s.cbcDecrypt_outcome (i := .cbcdecPkcs7) trivial _⟩
  | cbcdecX923 => exact ⟨_, rfl, s.cbcDecrypt_outcome (i := .cbcdecX923) trivial _⟩
  | keyclr => exact ⟨_, rfl, .cleared rfl⟩

/-- The engine's turn: it changes nothing while idle, runs the command in CMD, or completes an Illegal word
(40_command_cycle.md R143, R151). -/
theorem State.engineTurn_cases :
    (s.busy = false ∧ s.engineTurn = .next s) ∨
    (s.busy = true ∧ ∃ i, decode s.cmd = .command i ∧ s.engineTurn = exec i s) ∨
    (s.busy = true ∧ ∃ why, decode s.cmd = .illegal why ∧ s.engineTurn = .next (s.raise .illegal)) := by
  cases hb : s.busy with
  | false => exact .inl ⟨rfl, by simp [State.engineTurn, hb]⟩
  | true =>
    refine .inr ?_
    cases hd : decode s.cmd with
    | command i => exact .inl ⟨rfl, i, rfl, by simp [State.engineTurn, State.commandWord, hb, hd]⟩
    | illegal why =>
      exact .inr ⟨rfl, why, rfl, by simp [State.engineTurn, State.commandWord, State.completeIllegal, hb, hd]⟩

/-- A step is the next event, or the engine's turn when none is coming (20_memory.md R87). -/
theorem step_cases {t : State} (h : step s = .next t) :
    (s.agenda = [] ∧ s.engineTurn = .next t) ∨
    (∃ rest, s.agenda = .engine :: rest ∧ ({ s with agenda := rest } : State).engineTurn = .next t) ∨
    (∃ a rest, s.agenda = .access a :: rest ∧ t = ({ s with agenda := rest } : State).busAccess a) ∨
    (∃ rest, s.agenda = .reset :: rest ∧ t = ({ s with agenda := rest } : State).resetStep) := by
  unfold step at h
  cases ha : s.agenda with
  | nil => rw [ha] at h; exact .inl ⟨rfl, h⟩
  | cons e rest =>
    rw [ha] at h
    refine .inr ?_
    cases e with
    | engine => exact .inl ⟨rest, rfl, h⟩
    | access a => exact .inr (.inl ⟨a, rest, rfl, by simpa [State.perform] using h.symm⟩)
    | reset => exact .inr (.inr ⟨rest, rfl, by simpa [State.perform] using h.symm⟩)

/-- The step at a bus access. -/
theorem step_access {s : State} {a : BusAccess} {rest : List Event} (h : s.agenda = .access a :: rest) :
    step s = .next (({ s with agenda := rest } : State).busAccess a) := by
  rw [step, h]; rfl

/-- The step at a reset. -/
theorem step_reset {s : State} {rest : List Event} (h : s.agenda = .reset :: rest) :
    step s = .next ({ s with agenda := rest } : State).resetStep := by
  rw [step, h]; rfl

/-- A run of any machine whose first step answers `t` goes on from `t`. -/
theorem core_run_step (M : Host.Core) (k : Nat) {s t : M.State} (h : M.step s = .next t) :
    M.run (k + 1) s = M.run k t := by
  rw [Host.Core.run, h]

/-- A run whose first step answers `t` goes on from `t`. -/
theorem run_step {s t : State} (k : Nat) (h : step s = .next t) : core.run (k + 1) s = core.run k t :=
  core_run_step core k h

/-- A run of no step stays where it is. -/
@[simp] theorem run_zero (s : State) : core.run 0 s = .next s := rfl

end Sys2Proof.Machine
end

