-- ==== Sys2Proof/Laws/Bus.lean ====
section
/-! SUPPORT. What a bus access can do, said once: where an offset lands, and the steps at a read and at a write. -/

namespace Sys2Proof.Machine

/-- Outside the register block and the window an offset selects nothing (10_state.md R42). -/
theorem target_hole {size : Nat} {o : Offset} (h : 0x0040 ≤ o.toNat)
    (hw : o.toNat < 0x1000 ∨ 0x1000 + size < o.toNat + 4) : target size o = .unmapped := by
  simp only [target]; rw [if_neg (by omega), if_neg (by omega)]

/-- In the window an offset selects its word (20_memory.md R83). -/
theorem target_window {size : Nat} {o : Offset} (h : 0x1000 ≤ o.toNat) (hw : o.toNat + 4 ≤ 0x1000 + size) :
    target size o = .bufWord (o.toNat - 0x1000) := by
  simp only [target]; rw [if_neg (by omega), if_pos ⟨h, hw⟩]

/-- Which offset selects which target (10_state.md R32). -/
theorem target_cases (size : Nat) (o : Offset) :
    (o.toNat = 0x0000 ∧ target size o = .id) ∨ (o.toNat = 0x0004 ∧ target size o = .cmd) ∨
    (o.toNat = 0x0008 ∧ target size o = .status) ∨ (o.toNat = 0x000C ∧ target size o = .inten) ∨
    (∃ i : Fin 4, o.toNat = 0x0010 + 4 * i.val ∧ target size o = .key i) ∨
    (∃ i : Fin 4, o.toNat = 0x0020 + 4 * i.val ∧ target size o = .iv i) ∨
    (o.toNat = 0x0030 ∧ target size o = .addr) ∨ (o.toNat = 0x0034 ∧ target size o = .len) ∨
    (o.toNat = 0x0038 ∧ target size o = .rlen) ∨ (o.toNat = 0x003C ∧ target size o = .bufsz) ∨
    (0x1000 ≤ o.toNat ∧ o.toNat + 4 ≤ 0x1000 + size ∧ target size o = .bufWord (o.toNat - 0x1000)) ∨
    (target size o = .unmapped) := by
  simp only [target]
  split_ifs with h hw
  · generalize o.toNat = n at h
    interval_cases n <;> simp [registerTarget]
  · simp [hw]
  · simp

/-- The step at a read the engine serves (20_memory.md R81, R88): only the answer changes. -/
theorem step_read {s : State} {off : Nat} {rest : List Event} (h : s.NextReads off rest) (h4 : off % 4 = 0) :
    ∃ o : Offset, o.toNat = off ∧
      step s = .next (s.answered rest (.readData (s.readTarget (target s.bufSize o)))) := by
  obtain ⟨o, rfl, ha⟩ := h
  refine ⟨o, rfl, (step_access ha).trans ?_⟩
  simp only [State.busAccess, State.answer, served, h4, State.afterAccess, State.answered, and_self, decide_true, if_true]
  rw [show ({ s with agenda := rest } : State).bufSize = s.bufSize from rfl]
  cases target s.bufSize o <;> rfl

/-- The step at a write the engine serves. -/
theorem step_write {s : State} {off : Nat} {d : Word32} {rest : List Event} (h : s.NextWrites off d rest)
    (h4 : off % 4 = 0) :
    ∃ o : Offset, o.toNat = off ∧ step s = .next
      { ({ s with agenda := rest } : State).writeTarget (target s.bufSize o) d with response := some .writeDone } := by
  obtain ⟨o, rfl, ha⟩ := h
  refine ⟨o, rfl, (step_access ha).trans ?_⟩
  simp only [State.busAccess, State.answer, served, h4, State.afterAccess, and_self, decide_true, if_true]
  rfl

/-- A bus access does nothing but give its answer, or it is a served write (20_memory.md R81, R88). -/
theorem busAccess_cases (s : State) (a : BusAccess) :
    (s.busAccess a = { s with response := some (s.answer a) }) ∨
    (∃ (o : Offset) (d : Word32), a = .write 32 o d ∧ o.toNat % 4 = 0 ∧
      s.busAccess a = { s.writeTarget (target s.bufSize o) d with response := some .writeDone }) := by
  cases a with
  | read w o => exact .inl rfl
  | write w o d =>
    by_cases h : w = 32 ∧ o.toNat % 4 = 0
    · exact .inr ⟨o, d, by rw [h.1], h.2, by simp [State.busAccess, State.afterAccess, State.answer, served, h]⟩
    · exact .inl (by simp [State.busAccess, State.afterAccess, served, h])

/-- What a served write can do: be discarded, be ignored, or one of the effects of 10_state.md R33 to R42. -/
theorem State.writeTarget_cases (s : State) (size : Nat) (o : Offset) (d : Word32) :
    let t := s.writeTarget (target size o) d
    (s.busy = true ∧ (o.toNat = 0x0004 ∨ (0x0010 ≤ o.toNat ∧ o.toNat ≤ 0x0034) ∨
        (0x1000 ≤ o.toNat ∧ o.toNat < 0x1000 + size)) ∧ t = { s with ovr := true }) ∨
    t = s ∨
    (s.busy = false ∧ o.toNat = 0x0004 ∧ t = s.accept d) ∨
    (o.toNat = 0x0008 ∧ t = s.writeStatus d) ∨ (o.toNat = 0x000C ∧ t = s.writeInten d) ∨
    (s.busy = false ∧ ∃ i : Fin 4, o.toNat = 0x0010 + 4 * i.val ∧ t = { s with key := s.key.set i d, ksv := false }) ∨
    (s.busy = false ∧ ∃ i : Fin 4, o.toNat = 0x0020 + 4 * i.val ∧ t = { s with iv := s.iv.set i d }) ∨
    (s.busy = false ∧ o.toNat = 0x0030 ∧ t = { s with addr := d }) ∨
    (s.busy = false ∧ o.toNat = 0x0034 ∧ t = { s with len := d }) ∨
    (s.busy = false ∧ 0x1000 ≤ o.toNat ∧ o.toNat + 4 ≤ 0x1000 + size ∧
      t = s.memWrite (o.toNat - 0x1000) (bytesLe32 d)) := by
  intro t
  have hi : s.busy = false → t = s.performWrite d (target size o) := fun h => by
    simp only [t, State.writeTarget, h, Bool.false_and, Bool.false_eq_true, if_false]
  have hd : s.busy = true → t = if (target size o).frozenWhileBusy then { s with ovr := true }
      else s.performWrite d (target size o) := fun h => by simp only [t, State.writeTarget, h, Bool.true_and]
  clear_value t
  rcases Bool.eq_false_or_eq_true s.busy with hb | hb
  · have ht := hd hb
    rcases target_cases size o with ⟨h, e⟩ | ⟨h, e⟩ | ⟨h, e⟩ | ⟨h, e⟩ | ⟨i, h, e⟩ | ⟨i, h, e⟩ | ⟨h, e⟩ | ⟨h, e⟩ | ⟨h, e⟩ |
      ⟨h, e⟩ | ⟨h, h', e⟩ | e <;> rw [e] at ht <;>
      simp only [State.performWrite, Target.frozenWhileBusy, Bool.false_eq_true, if_false, if_true] at ht <;> subst ht
    all_goals first
      | exact .inr (.inl rfl)
      | exact .inr (.inr (.inr (.inl ⟨h, rfl⟩)))
      | exact .inr (.inr (.inr (.inr (.inl ⟨h, rfl⟩))))
      | exact .inl ⟨hb, by omega, rfl⟩
  · have ht := hi hb
    rcases target_cases size o with ⟨h, e⟩ | ⟨h, e⟩ | ⟨h, e⟩ | ⟨h, e⟩ | ⟨i, h, e⟩ | ⟨i, h, e⟩ | ⟨h, e⟩ | ⟨h, e⟩ | ⟨h, e⟩ |
      ⟨h, e⟩ | ⟨h, h', e⟩ | e <;> rw [e] at ht <;> simp only [State.performWrite] at ht <;> subst ht
    all_goals first
      | exact .inr (.inl rfl)
      | exact .inr (.inr (.inl ⟨hb, h, rfl⟩))
      | exact .inr (.inr (.inr (.inl ⟨h, rfl⟩)))
      | exact .inr (.inr (.inr (.inr (.inl ⟨h, rfl⟩))))
      | exact .inr (.inr (.inr (.inr (.inr (.inl ⟨hb, i, h, rfl⟩)))))
      | exact .inr (.inr (.inr (.inr (.inr (.inr (.inl ⟨hb, i, h, rfl⟩))))))
      | exact .inr (.inr (.inr (.inr (.inr (.inr (.inr (.inl ⟨hb, h, rfl⟩)))))))
      | exact .inr (.inr (.inr (.inr (.inr (.inr (.inr (.inr (.inl ⟨hb, h, rfl⟩))))))))
      | exact .inr (.inr (.inr (.inr (.inr (.inr (.inr (.inr (.inr ⟨hb, h, h', rfl⟩))))))))

/-- Everything a step can do, guards included: an idle turn, a command's outcome, an Illegal word, an answer alone, a
served write, or a reset. -/
theorem step_inversion {s t : State} (h : step s = .next t) :
    (∃ rest, s.busy = false ∧ t = { s with agenda := rest }) ∨
    (∃ rest, s.busy = true ∧ ∃ i, decode s.cmd = .command i ∧ CommandOutcome i { s with agenda := rest } t) ∨
    (∃ rest why, s.busy = true ∧ decode s.cmd = .illegal why ∧ t = ({ s with agenda := rest } : State).raise .illegal) ∨
    (∃ rest r, t = s.answered rest r) ∨
    (∃ rest o d, s.agenda = .access (.write 32 o d) :: rest ∧ o.toNat % 4 = 0 ∧
      t = { ({ s with agenda := rest } : State).writeTarget (target s.bufSize o) d with response := some .writeDone }) ∨
    (∃ rest, s.agenda = .reset :: rest ∧ t = ({ s with agenda := rest } : State).resetStep) := by
  have eng : ∀ rest, ({ s with agenda := rest } : State).engineTurn = .next t →
    (s.busy = false ∧ t = { s with agenda := rest }) ∨
    (s.busy = true ∧ ∃ i, decode s.cmd = .command i ∧ CommandOutcome i { s with agenda := rest } t) ∨
    (∃ why, s.busy = true ∧ decode s.cmd = .illegal why ∧ t = ({ s with agenda := rest } : State).raise .illegal) := by
    intro rest he
    rcases ({ s with agenda := rest } : State).engineTurn_cases with ⟨hb, e⟩ | ⟨hb, i, hd, e⟩ | ⟨hb, why, hd, e⟩ <;> rw [e] at he
    · exact .inl ⟨hb, by simpa using he.symm⟩
    · obtain ⟨t', ht', ho⟩ := exec_outcome { s with agenda := rest } i
      rw [ht'] at he; cases he
      exact .inr (.inl ⟨hb, i, hd, ho⟩)
    · exact .inr (.inr ⟨why, hb, hd, by simpa using he.symm⟩)
  rcases step_cases s h with ⟨ha, he⟩ | ⟨rest, ha, he⟩ | ⟨a, rest, ha, e⟩ | ⟨rest, ha, e⟩
  · rcases eng s.agenda he with h | h | ⟨why, h⟩
    · exact .inl ⟨_, h⟩
    · exact .inr (.inl ⟨_, h⟩)
    · exact .inr (.inr (.inl ⟨_, why, h⟩))
  · rcases eng rest he with h | h | ⟨why, h⟩
    · exact .inl ⟨_, h⟩
    · exact .inr (.inl ⟨_, h⟩)
    · exact .inr (.inr (.inl ⟨_, why, h⟩))
  · rcases busAccess_cases { s with agenda := rest } a with e' | ⟨o, d, rfl, h4, e'⟩ <;> rw [e'] at e
    · exact .inr (.inr (.inr (.inl ⟨rest, _, e⟩)))
    · exact .inr (.inr (.inr (.inr (.inl ⟨rest, o, d, ha, h4, e⟩))))
  · exact .inr (.inr (.inr (.inr (.inr ⟨rest, ha, e⟩))))

end Sys2Proof.Machine
end

