-- ==== Sys2Proof/Laws/Encoding.lean ====
section
/-! SUPPORT. The fields of a command word as numbers, and format C as a number (30_encoding.md R111). -/

namespace Sys2Proof

theorem opcField_toNat (w : Word32) : (opcField w).toNat = w.toNat % 16 := by simp [opcField]

theorem schField_toNat (w : Word32) : (schField w).toNat = w.toNat / 16 % 2 := by
  simp [schField, Nat.shiftRight_eq_div_pow]

theorem res0Field_toNat (w : Word32) : (res0Field w).toNat = w.toNat / 32 % 8 := by
  simp [res0Field, Nat.shiftRight_eq_div_pow]

theorem blkField_toNat (w : Word32) : (blkField w).toNat = w.toNat / 256 % 256 := by
  simp [blkField, Nat.shiftRight_eq_div_pow]

theorem res1Field_toNat (w : Word32) : (res1Field w).toNat = w.toNat / 65536 := by
  have := w.isLt
  simp [res1Field, Nat.shiftRight_eq_div_pow]; omega

/-- Format C as a number: OPC, SCH and BLK at bits 0, 4 and 8 (R111). -/
theorem formatC_toNat (blk : BitVec 8) (sch : BitVec 1) (opc : BitVec 4) :
    (formatC blk sch opc).toNat = opc.toNat + 16 * sch.toNat + 256 * blk.toNat := by
  have h1 := opc.isLt
  have h2 := sch.isLt
  have h3 := blk.isLt
  simp only [formatC, BitVec.toNat_append, BitVec.toNat_ofNat]
  rw [← Nat.shiftLeft_add_eq_or_of_lt h1, ← Nat.shiftLeft_add_eq_or_of_lt h2,
    ← Nat.shiftLeft_add_eq_or_of_lt (by decide), ← Nat.shiftLeft_add_eq_or_of_lt h3]
  simp [Nat.shiftLeft_eq]; omega

@[simp] theorem opcField_formatC (blk : BitVec 8) (sch : BitVec 1) (opc : BitVec 4) :
    opcField (formatC blk sch opc) = opc :=
  BitVec.eq_of_toNat_eq (by rw [opcField_toNat, formatC_toNat]; omega)

@[simp] theorem schField_formatC (blk : BitVec 8) (sch : BitVec 1) (opc : BitVec 4) :
    schField (formatC blk sch opc) = sch :=
  BitVec.eq_of_toNat_eq (by rw [schField_toNat, formatC_toNat]; omega)

@[simp] theorem res0Field_formatC (blk : BitVec 8) (sch : BitVec 1) (opc : BitVec 4) :
    res0Field (formatC blk sch opc) = 0#3 :=
  BitVec.eq_of_toNat_eq (by rw [res0Field_toNat, formatC_toNat]; have := sch.isLt; have := opc.isLt; simp; omega)

@[simp] theorem blkField_formatC (blk : BitVec 8) (sch : BitVec 1) (opc : BitVec 4) :
    blkField (formatC blk sch opc) = blk :=
  BitVec.eq_of_toNat_eq (by rw [blkField_toNat, formatC_toNat]; omega)

@[simp] theorem res1Field_formatC (blk : BitVec 8) (sch : BitVec 1) (opc : BitVec 4) :
    res1Field (formatC blk sch opc) = 0#16 :=
  BitVec.eq_of_toNat_eq (by rw [res1Field_toNat, formatC_toNat]; have := blk.isLt; simp; omega)

/-- A word whose reserved fields are 0 is format C of its other fields (R111). -/
theorem formatC_fields {w : Word32} (h1 : res1Field w = 0#16) (h0 : res0Field w = 0#3) :
    formatC (blkField w) (schField w) (opcField w) = w := by
  have h1 := congrArg BitVec.toNat h1
  have h0 := congrArg BitVec.toNat h0
  rw [res1Field_toNat] at h1
  rw [res0Field_toNat] at h0
  refine BitVec.eq_of_toNat_eq ?_
  rw [formatC_toNat, opcField_toNat, schField_toNat, blkField_toNat]
  simp at h0 h1; omega

/-- A padding row's mask leaves out BLK and nothing else of format C (R113). -/
theorem formatC_mask (blk : BitVec 8) :
    formatC blk 0#1 4#4 &&& 0xFFFF00FF#32 = 0x04#32 ∧ formatC blk 1#1 4#4 &&& 0xFFFF00FF#32 = 0x14#32 ∧
    formatC blk 0#1 5#4 &&& 0xFFFF00FF#32 = 0x05#32 ∧ formatC blk 1#1 5#4 &&& 0xFFFF00FF#32 = 0x15#32 := by
  revert blk; decide +kernel

end Sys2Proof
end

