-- ==== Sys2Proof/Laws/PerInstr.lean ====
section
/-! SUPPORT. One fact about every command as syntax: its word selects its own row of the opcode map (30_encoding.md
R113). -/

namespace Sys2Proof.Laws.EncodeSelectsRow

/-- The word of a well-formed command selects the row of its mnemonic. -/
def Statement (i : Instr) : Prop :=
  i.wellFormed = true → ∃ row ∈ opcodeTable, row.mnemonic = i.mnemonic ∧ row.selectedBy (encode i) = true

theorem nop : Statement .nop := fun _ => ⟨⟨"NOP", 0x00000000#32, 0xFFFFFFFF#32⟩, by decide +kernel⟩
theorem keyexp : Statement .keyexp := fun _ => ⟨⟨"KEYEXP", 0x00000001#32, 0xFFFFFFFF#32⟩, by decide +kernel⟩
theorem encb : Statement .encb := fun _ => ⟨⟨"ENCB", 0x00000002#32, 0xFFFFFFFF#32⟩, by decide +kernel⟩
theorem decb : Statement .decb := fun _ => ⟨⟨"DECB", 0x00000003#32, 0xFFFFFFFF#32⟩, by decide +kernel⟩
theorem padPkcs7 (bl : Nat) : Statement (.padPkcs7 bl) := fun _ =>
  ⟨⟨"PAD.PKCS7", 0x00000004#32, 0xFFFF00FF#32⟩, by decide, rfl, by
    simp [OpcodeRow.selectedBy, encode, (formatC_mask _).1]⟩
theorem padX923 (bl : Nat) : Statement (.padX923 bl) := fun _ =>
  ⟨⟨"PAD.X923", 0x00000014#32, 0xFFFF00FF#32⟩, by decide, rfl, by
    simp [OpcodeRow.selectedBy, encode, (formatC_mask _).2.1]⟩
theorem unpadPkcs7 (bl : Nat) : Statement (.unpadPkcs7 bl) := fun _ =>
  ⟨⟨"UNPAD.PKCS7", 0x00000005#32, 0xFFFF00FF#32⟩, by decide, rfl, by
    simp [OpcodeRow.selectedBy, encode, (formatC_mask _).2.2.1]⟩
theorem unpadX923 (bl : Nat) : Statement (.unpadX923 bl) := fun _ =>
  ⟨⟨"UNPAD.X923", 0x00000015#32, 0xFFFF00FF#32⟩, by decide, rfl, by
    simp [OpcodeRow.selectedBy, encode, (formatC_mask _).2.2.2]⟩
theorem cbcencPkcs7 : Statement .cbcencPkcs7 := fun _ => ⟨⟨"CBCENC.PKCS7", 0x00000006#32, 0xFFFFFFFF#32⟩, by decide +kernel⟩
theorem cbcencX923 : Statement .cbcencX923 := fun _ => ⟨⟨"CBCENC.X923", 0x00000016#32, 0xFFFFFFFF#32⟩, by decide +kernel⟩
theorem cbcdecPkcs7 : Statement .cbcdecPkcs7 := fun _ => ⟨⟨"CBCDEC.PKCS7", 0x00000007#32, 0xFFFFFFFF#32⟩, by decide +kernel⟩
theorem cbcdecX923 : Statement .cbcdecX923 := fun _ => ⟨⟨"CBCDEC.X923", 0x00000017#32, 0xFFFFFFFF#32⟩, by decide +kernel⟩
theorem keyclr : Statement .keyclr := fun _ => ⟨⟨"KEYCLR", 0x00000008#32, 0xFFFFFFFF#32⟩, by decide +kernel⟩

end Sys2Proof.Laws.EncodeSelectsRow
end

