-- ==== Sys2Proof/Tests/Slice0.lean ====
section
/-! SUPPORT. The model's own tests. Expected values come from spec/95_test_vectors.md (V, P) and from the encoding tables of
spec/30_encoding.md; the last part gives, for each obligation with hypotheses, states that meet them. -/

namespace Sys2Proof.Tests

open Sys2Proof Sys2Proof.Machine

-- one test at a time, so that few threads run at once
set_option Elab.async false

/-! ## Small states -/

/-- KEY_A and IV_A of spec/95_test_vectors.md. -/
def keyA : Words4 := ⟨0x03020100#32, 0x07060504#32, 0x0b0a0908#32, 0x0f0e0d0c#32⟩
def ivA : Words4 := ⟨0xf3f2f1f0#32, 0xf7f6f5f4#32, 0xfbfaf9f8#32, 0xfffefdfc#32⟩

/-- The key bytes 00 01 .. 0f, the text PT_A, and V1's and V32's ciphertexts. -/
def keyBytesA : List Byte := bytesOfNat 16 0x0f0e0d0c0b0a09080706050403020100
def ptA : List Byte := bytesOfNat 16 0x6c617669757165207469206564616d20
def ctV1 : List Byte := bytesOfNat 16 0xa65d9851797832657860fedf5c570d18
def ctV32 : List Byte := bytesOfNat 16 0x738e47c4791e397e19127be87bb2ce0a

/-- An engine after reset, with KEY_A and IV_A, ADDR, LEN, and bytes written at an offset of BUF. -/
def engine (addr len : Word32) (at_ : Nat) (b : List Byte) : State :=
  { State.reset with key := keyA, iv := ivA, addr := addr, len := len, buf := Memory.writeBytes [] at_ b }

/-- The same, busy with a command word. -/
def busyWith (w : Word32) (s : State) : State := s.accept w

/-- The same with the schedule cached. -/
def cached (s : State) : State := { s with rk := expand keyBytesA, ksv := true }

/-- What the host could read after one step: STATUS, RLEN and the `n` bytes from `a`. -/
def seen (o : Host.Outcome State Fault Refusal) (a n : Nat) : Option (Word32 × Word32 × List Byte) :=
  match o with
  | .next t => some (t.statusWord, t.rlen, t.memRead a n)
  | .fault _ => none
  | .refused _ => none

/-- The step that completes a command word, as the host could see it. -/
def run (w : Nat) (s : State) (a n : Nat) : Option (Word32 × Word32 × List Byte) := seen (step (s.withFetchWord 32 w)) a n

/-- An engine whose next event is one bus access. -/
def accessing (s : State) (a : BusAccess) : State := { s with agenda := [.access a] }

/-! ## Well-formedness: each check refuses an ill-formed term (30_encoding.md R117) -/

theorem test_wf_padPkcs7_refuses_256 : (Instr.padPkcs7 256).wellFormed = false := by decide
theorem test_wf_padX923_refuses_256 : (Instr.padX923 256).wellFormed = false := by decide
theorem test_wf_unpadPkcs7_refuses_256 : (Instr.unpadPkcs7 256).wellFormed = false := by decide
theorem test_wf_unpadX923_refuses_256 : (Instr.unpadX923 256).wellFormed = false := by decide
theorem test_wf_block_lengths_0_and_255 :
    (Instr.padPkcs7 0).wellFormed = true ∧ (Instr.unpadX923 255).wellFormed = true := by decide

/-! ## Decoding (V50; the words are written out from R111) -/

theorem test_decode_nop : decode 0b00000000000000000000000000000000#32 = .command .nop := by decide +kernel
theorem test_decode_keyexp : decode 0b00000000000000000000000000000001#32 = .command .keyexp := by decide +kernel
theorem test_decode_encb : decode 0b00000000000000000000000000000010#32 = .command .encb := by decide +kernel
theorem test_decode_decb : decode 0b00000000000000000000000000000011#32 = .command .decb := by decide +kernel
theorem test_decode_padPkcs7 : decode 0b00000000000000001111111100000100#32 = .command (.padPkcs7 255) := by
  decide +kernel
theorem test_decode_padX923 : decode 0b00000000000000000000100000010100#32 = .command (.padX923 8) := by decide +kernel
theorem test_decode_unpadPkcs7 : decode 0b00000000000000000001000000000101#32 = .command (.unpadPkcs7 16) := by
  decide +kernel
theorem test_decode_unpadX923 : decode 0b00000000000000001111111100010101#32 = .command (.unpadX923 255) := by
  decide +kernel
theorem test_decode_cbcencPkcs7 : decode 0b00000000000000000000000000000110#32 = .command .cbcencPkcs7 := by decide +kernel
theorem test_decode_cbcencX923 : decode 0b00000000000000000000000000010110#32 = .command .cbcencX923 := by decide +kernel
theorem test_decode_cbcdecPkcs7 : decode 0b00000000000000000000000000000111#32 = .command .cbcdecPkcs7 := by decide +kernel
theorem test_decode_cbcdecX923 : decode 0b00000000000000000000000000010111#32 = .command .cbcdecX923 := by decide +kernel
theorem test_decode_keyclr : decode 0b00000000000000000000000000001000#32 = .command .keyclr := by decide +kernel
theorem test_decode_block_length_zero : decode 0x00000004#32 = .command (.padPkcs7 0) := by decide +kernel
theorem test_decode_reserved_opcodes :
    decode 0x00000009#32 = .illegal .reservedOpcode ∧ decode 0x0000000F#32 = .illegal .reservedOpcode := by decide +kernel
theorem test_decode_operand_on_plain_command :
    decode 0x00000010#32 = .illegal .operandOnPlainCommand ∧ decode 0x00000018#32 = .illegal .operandOnPlainCommand ∧
    decode 0x00000100#32 = .illegal .operandOnPlainCommand ∧ decode 0x00001002#32 = .illegal .operandOnPlainCommand := by
  decide +kernel
theorem test_decode_reserved_bits :
    decode 0x00000020#32 = .illegal .reservedBits ∧ decode 0x00000084#32 = .illegal .reservedBits ∧
    decode 0x00010002#32 = .illegal .reservedBits ∧ decode 0x80000000#32 = .illegal .reservedBits ∧
    decode 0xFFFFFFFF#32 = .illegal .reservedBits := by decide +kernel
theorem test_decode_block_length_on_cbc :
    decode 0x00000106#32 = .illegal .blockLengthOnCbc ∧ decode 0x00001017#32 = .illegal .blockLengthOnCbc := by
  decide +kernel
theorem test_decodeTableWord :
    decodeTableWord 32 0x1005 = some (.unpadPkcs7 16) ∧ decodeTableWord 32 0x9 = none := by decide +kernel

/-! ## The Speck engine (V1 to V9) -/

theorem test_rotations : rotr64 0x0123456789abcdef#64 8 = 0xef0123456789abcd#64 ∧
    rotl64 0x0123456789abcdef#64 8 = 0x23456789abcdef01#64 ∧ rotl64 0x0123456789abcdef#64 3 = 0x091a2b3c4d5e6f78#64 ∧
    rotr64 0x0123456789abcdef#64 3 = 0xe02468acf13579bd#64 := by decide +kernel
theorem test_round_V6 : speckRound 0x0706050403020100#64 (0x6c61766975716520#64, 0x7469206564616d20#64) =
    (0x93d384dfced4df85#64, 0x309a87f4eddfb686#64) ∧
    speckRound 0#64 (0x100#64, 0xffffffffffffffff#64) = (0#64, 0xffffffffffffffff#64) := by decide +kernel
theorem test_roundInv_V6 : speckRoundInv 0x0706050403020100#64 (0x93d384dfced4df85#64, 0x309a87f4eddfb686#64) =
    (0x6c61766975716520#64, 0x7469206564616d20#64) := by decide +kernel
theorem test_words_V2 : toWords ptA = (0x6c61766975716520#64, 0x7469206564616d20#64) := by decide +kernel
theorem test_schedule_V3 : (expand keyBytesA)[1] = 0x37253b31171d0309#64 ∧ (expand keyBytesA)[2] = 0xf91d89cc90c4085c#64 ∧
    (expand keyBytesA)[16] = 0x771ebffcbf05cb13#64 ∧ (expand keyBytesA)[31] = 0x2199c870db8ec93f#64 := by decide +kernel
theorem test_schedule_V4 : (expand (List.replicate 16 0#8))[2] = 1#64 ∧
    (expand (List.replicate 16 0#8))[31] = 0xf83706bb7a19c59d#64 := by decide +kernel

theorem test_encb_V1 : run 0x2 (engine 0 0 0 ptA) 0 16 = some (0x102#32, 16#32, ctV1) := by decide +kernel
theorem test_encb_range_V9a : run 0x2 (engine 0xFFFFFFF8 0 0 []) 0 0 = some (0x52#32, 0#32, []) := by decide +kernel
theorem test_decb_V1 : run 0x3 (engine 0 0 0 ctV1) 0 16 = some (0x102#32, 16#32, ptA) := by decide +kernel
theorem test_decb_V9 : run 0x3 (engine 3 0 3 (List.replicate 16 0#8)) 3 16 =
    some (0x102#32, 16#32, bytesOfNat 16 0x63fe6fcb05ca317dd52482a8070689dd) := by decide +kernel
theorem test_keyexp_V9a : run 0x1 (engine 0xFFFFFFFF 0xFFFFFFFF 0 []) 0 0 = some (0x102#32, 0#32, []) := by decide +kernel
theorem test_keyclr_V53 : run 0x8 (cached (engine 0 0 0 [])) 0 0 = some (0x2#32, 0#32, []) := by decide +kernel

/-! ## Commands with no data -/

theorem test_nop_R150 : run 0x0 (engine 0 0 0 []) 0 0 = some (0x2#32, 0#32, []) := by decide +kernel
theorem test_illegal_R151 : run 0x9 (engine 0 0 0 []) 0 0 = some (0x32#32, 0#32, []) := by decide +kernel

/-! ## Padding (V10 to V29) -/

theorem test_padPkcs7_V12 : run 0x1004 (engine 0 17 0 []) 17 15 = some (0x2#32, 32#32, List.replicate 15 0x0f#8) := by
  decide +kernel
theorem test_padPkcs7_range_V12a : run 0x1004 (engine 0xFFC 4 0 []) 0 0 = some (0x52#32, 0#32, []) := by decide +kernel
theorem test_padX923_V11 : run 0x814 (engine 0 5 0 (bytesOfNat 5 0x13BBEECCAA)) 0 8 =
    some (0x2#32, 8#32, [0xAA#8, 0xCC#8, 0xEE#8, 0xBB#8, 0x13#8, 0#8, 0#8, 3#8]) := by decide +kernel
theorem test_padX923_config_V12a : run 0x14 (engine 0xFFFFFFFF 0xFFFFFFFF 0 []) 0 0 = some (0x42#32, 0#32, []) := by
  decide +kernel
theorem test_unpadPkcs7_V19 : run 0x405 (engine 0 8 0 (List.replicate 8 8#8)) 0 8 =
    some (0x2#32, 0#32, List.replicate 8 8#8) := by decide +kernel
theorem test_unpadPkcs7_V18 : run 0x805 (engine 0 8 0 (bytesOfNat 8 0x0203050505050505)) 0 0 = some (0x22#32, 0#32, []) := by
  decide +kernel
theorem test_unpadX923_V23 : run 0x815 (engine 0 8 0 (bytesOfNat 8 0x0300000000000000)) 0 0 = some (0x2#32, 5#32, []) := by
  decide +kernel
theorem test_unpadX923_V25a : run 0x815 (engine 0 8 0 (List.replicate 8 0#8)) 0 0 = some (0x22#32, 0#32, []) := by
  decide +kernel
theorem test_unpad_order_V29 : run 0x805 (engine 0xFFE 3 0 []) 0 0 = some (0x52#32, 0#32, []) ∧
    run 0x805 (engine 0x1000 0 0 []) 0 0 = some (0x12#32, 0#32, []) := by decide +kernel

/-! ## CBC (V30 to V42) -/

theorem test_cbcencPkcs7_V34 : run 0x6 (engine 0 16 0 ptA) 0 32 = some (0x102#32, 32#32,
    bytesOfNat 16 0x1603887cd8fcbf026ac31eb72ebee1dd ++ bytesOfNat 16 0xa8c913d80a4d9717d1010f18a2a5f7c9) := by decide +kernel
theorem test_cbcencPkcs7_range_V41 : run 0x6 (engine 0xFF0 16 0 []) 0 0 = some (0x52#32, 0#32, []) := by decide +kernel
theorem test_cbcencX923_V33 : run 0x16 (engine 0x20 3 0x20 [0x61#8, 0x62#8, 0x63#8]) 0x20 16 =
    some (0x102#32, 16#32, bytesOfNat 16 0x5fbb5a08e7add4b8c9e5907cf589c221) := by decide +kernel
theorem test_cbcdecPkcs7_V32 : run 0x7 (engine 0 16 0 ctV32) 0 16 =
    some (0x102#32, 3#32, [0x61#8, 0x62#8, 0x63#8] ++ List.replicate 13 0x0d#8) := by decide +kernel
theorem test_cbcdecPkcs7_V40 : run 0x7 (engine 0 17 0 []) 0 0 = some (0x12#32, 0#32, []) ∧
    run 0x7 (engine 0 0 0 []) 0 0 = some (0x12#32, 0#32, []) := by decide +kernel
theorem test_cbcdecX923_V39 : run 0x17 (engine 0 16 0 ctV32) 0 16 = some (0x22#32, 0#32, ctV32) := by decide +kernel
theorem test_cbcdecX923_V33 : run 0x17 (engine 0 16 0 (bytesOfNat 16 0x5fbb5a08e7add4b8c9e5907cf589c221)) 0 16 =
    some (0x102#32, 3#32, [0x61#8, 0x62#8, 0x63#8] ++ List.replicate 12 0#8 ++ [0x0d#8]) := by decide +kernel

/-! ## The bus (V51 to V55) -/

/-- The answer to the access that is next. -/
def answerOf (o : Host.Outcome State Fault Refusal) : Option BusResponse :=
  match o with
  | .next t => t.response
  | .fault _ => none
  | .refused _ => none

theorem test_read_id : answerOf (step (accessing State.reset (.read 32 0x0000#16))) = some (.readData 0x53504B31#32) := by
  decide +kernel
theorem test_read_bufsz : answerOf (step (accessing State.reset (.read 32 0x003C#16))) = some (.readData 0x1000#32) := by
  decide +kernel
theorem test_read_key0 : answerOf (step (accessing (engine 0 0 0 []) (.read 32 0x0010#16))) = some (.readData 0#32) := by
  decide +kernel
theorem test_read_iv0 : answerOf (step (accessing (engine 0 0 0 []) (.read 32 0x0020#16))) =
    some (.readData 0xf3f2f1f0#32) := by decide +kernel
theorem test_read_buf_word : answerOf (step (accessing (engine 0 0 0 ptA) (.read 32 0x1000#16))) =
    some (.readData 0x64616d20#32) := by decide +kernel
theorem test_read_buf_while_busy :
    answerOf (step (accessing (busyWith 2#32 (engine 0 0 0 ptA)) (.read 32 0x1000#16))) = some (.readData 0#32) := by
  decide +kernel
theorem test_read_hole_above_window :
    answerOf (step (accessing (engine 0 0 0 []) (.read 32 0x2000#16))) = some (.readData 0#32) := by decide +kernel
theorem test_bus_errors :
    answerOf (step (accessing (engine 0 0 0 []) (.write 8 0x1000#16 0xFF#32))) = some .writeError ∧
    answerOf (step (accessing (engine 0 0 0 []) (.read 32 0x0002#16))) = some (.readError 0#32) ∧
    answerOf (step (accessing (engine 0 0 0 []) (.read 16 0x0008#16))) = some (.readError 0#32) := by decide +kernel
theorem test_write_buf_word : seen (step (accessing (engine 0 0 0 []) (.write 32 0x1000#16 0x64616d20#32))) 0 4 =
    some (0#32, 0#32, [0x20#8, 0x6d#8, 0x61#8, 0x64#8]) := by decide +kernel
theorem test_write_key0_while_busy_P4 :
    seen (step (accessing (busyWith 2#32 (engine 0 0 0 [])) (.write 32 0x0010#16 0xdeadbeef#32))) 0 0 =
      some (0x5#32, 0#32, []) := by decide +kernel
theorem test_write_key2_clears_ksv_P6 :
    seen (step (accessing (cached (engine 0 0 0 [])) (.write 32 0x0018#16 0x0b0a0908#32))) 0 0 = some (0#32, 0#32, []) := by
  decide +kernel
theorem test_irq_V55 : ({ engine 0 0 0 [] with done := true, doneie := true } : State).irq = true ∧
    ({ engine 0 0 0 [] with done := true } : State).irq = false := by decide +kernel

/-! ## Host programs (30_encoding.md R117, R118; P1, P3) -/

theorem test_text : commandText (.padX923 8) = "PAD.X923 #8" ∧ commandText .encb = "ENCB" := by decide +kernel
theorem test_assemble : assemble (.padX923 8) = some 0x814#32 ∧ assemble (.padPkcs7 256) = none := by decide +kernel
theorem test_setKey_P1 : setKey keyBytesA = [.write 32 0x0010#16 0x03020100#32, .write 32 0x0014#16 0x07060504#32,
    .write 32 0x0018#16 0x0b0a0908#32, .write 32 0x001C#16 0x0f0e0d0c#32] := by decide +kernel
theorem test_wrBuf_P3 : wrBuf 0 [0xAA#8, 0xCC#8, 0xEE#8, 0xBB#8, 0x13#8] =
    [.write 32 0x1000#16 0xbbeeccaa#32, .write 32 0x1004#16 0x00000013#32] := by decide +kernel
theorem test_rdBuf_P1 : rdBuf 0 16 = [.read 32 0x1000#16, .read 32 0x1004#16, .read 32 0x1008#16, .read 32 0x100C#16] := by
  decide +kernel

/-! ## Witnesses: states and operands that meet an obligation's hypotheses, at the edges of their ranges -/

/-- A state that is not the reset state, between commands: a cached key, a written message at the end of BUF. -/
def idleEngine : State := cached (engine 0xFF0 16 0xFF0 ctV32)

/-- The same, with one event coming. -/
def facing (e : Event) (s : State) : State := { s with agenda := [e] }

/-- The next event is a write. -/
def writing (o : Offset) (d : Word32) (s : State) : State := facing (.access (.write 32 o d)) s

/-- The next event is a read. -/
def reading (o : Offset) (s : State) : State := facing (.access (.read 32 o)) s

theorem test_cached_is_valid (s : State) (h : s.key = keyA) : (cached s).KeyCacheValid := by
  intro _
  have hk : keyA.bytes = keyBytesA := by decide +kernel
  simp [cached, State.keyBytes, h, hk]

theorem test_not_cached_is_valid (s : State) (h : s.ksv = false) : s.KeyCacheValid := by
  intro hk; simp [h] at hk

theorem test_idleEngine_valid : idleEngine.KeyCacheValid ∧ idleEngine.ksv = true ∧ idleEngine.busy = false :=
  ⟨test_cached_is_valid _ rfl, rfl, rfl⟩

/-- DecodeEncodeAgree, DecodeFollowsOpcodeMap: a well-formed command at the edge, a decoded word, a word that matches a row. -/
theorem test_witness_encoding : (Instr.unpadX923 255).wellFormed = true ∧ decode 0x0000FF15#32 = .command (.unpadX923 255) ∧
    (∃ row ∈ opcodeTable, 0x0000FF15#32 &&& row.mask = row.matchBits) := by decide +kernel

/-- IllegalWordsCompleteWithIllegal: an Illegal word written while idle, the engine's turn after it. -/
theorem test_witness_illegal : (∃ why, decode 0x0000000F#32 = .illegal why) ∧
    ∃ s : State, s.busy = false ∧ s.NextWrites 0x0004 0x0000000F#32 [.engine] :=
  ⟨⟨.reservedOpcode, by decide +kernel⟩,
    { idleEngine with agenda := [.access (.write 32 0x0004#16 0x0000000F#32), .engine] }, rfl, 0x0004#16, rfl, rfl⟩

/-- CommandAcceptance, OverrunRecordsDiscardedWrites: CMD written while idle and while busy; the protected offsets' edges. -/
theorem test_witness_writes_cmd : (writing 0x0004#16 2#32 idleEngine).NextWrites 0x0004 2#32 [] ∧
    (writing 0x0004#16 2#32 idleEngine).busy = false ∧
    (writing 0x0004#16 2#32 (busyWith 2#32 idleEngine)).NextWrites 0x0004 2#32 [] ∧
    (writing 0x0004#16 2#32 (busyWith 2#32 idleEngine)).busy = true :=
  ⟨⟨_, rfl, rfl⟩, rfl, ⟨_, rfl, rfl⟩, rfl⟩
theorem test_witness_protected : ProtectedOffset 4096 0x0004 ∧ ProtectedOffset 4096 0x0010 ∧ ProtectedOffset 4096 0x0034 ∧
    ProtectedOffset 4096 0x1000 ∧ ProtectedOffset 4096 0x1FFC ∧ ¬ProtectedOffset 4096 0x2000 ∧
    ¬ProtectedOffset 4096 0x0038 ∧ ¬ProtectedOffset 4096 0x000C ∧ Config.BufSizeLegal idleEngine.bufsz.toNat ∧
    Config.BufSizeLegal 512 ∧ Config.BufSizeLegal 0xF000 := by
  simp only [ProtectedOffset]; decide +kernel
theorem test_witness_overrun : ∃ t, step (writing 0x1FFC#16 2#32 (busyWith 2#32 idleEngine)) = .next t ∧
    idleEngine.ovr = false ∧ t.ovr = true := ⟨_, rfl, rfl, rfl⟩
theorem test_witness_overrun_cleared : ∃ t, step (writing 0x0008#16 4#32 { idleEngine with ovr := true }) = .next t ∧
    t.ovr = false := ⟨_, rfl, rfl⟩

/-- StepRunsThePendingCommand, PendingCommandCompletes: a pending command and a pending Illegal word, with no event coming
and with the engine's turn coming. -/
theorem test_witness_pending : (busyWith 3#32 idleEngine).busy = true ∧ (busyWith 3#32 idleEngine).agenda = [] ∧
    decode (busyWith 3#32 idleEngine).cmd = .command .decb ∧
    (facing .engine (busyWith 9#32 idleEngine)).agenda = .engine :: [] ∧
    decode (busyWith 9#32 idleEngine).cmd = .illegal .reservedOpcode := ⟨rfl, rfl, by decide +kernel, rfl, by decide +kernel⟩

/-- FetchedWordRunsNext. -/
theorem test_witness_fetch : decodeTableWord 32 0x0000FF15 = some (.unpadX923 255) := by decide +kernel

/-- ResultDependsOnInputsOnly: the same inputs with and without a cached schedule. -/
theorem test_witness_same_inputs : (engine 0 16 0 ptA).KeyCacheValid ∧ (cached (engine 0 16 0 ptA)).KeyCacheValid ∧
    (cached (engine 0 16 0 ptA)).key = (engine 0 16 0 ptA).key ∧ (cached (engine 0 16 0 ptA)).ksv = true ∧
    (engine 0 16 0 ptA).ksv = false :=
  ⟨test_not_cached_is_valid _ rfl, test_cached_is_valid _ rfl, rfl, rfl, rfl⟩

/-- NopEffect: a word with OPC 0 that is not NOP. -/
theorem test_witness_not_nop : (0x00000010#32).toNat % 16 = 0 ∧ 0x00000010#32 ≠ 0#32 := by decide

/-- EncbEffect, DecbEffect: the last block of BUF fits, and one byte further does not (V9a). -/
theorem test_witness_block : idleEngine.addr.toNat + 16 = idleEngine.bufsz.toNat ∧
    (cached (engine 0xFF1 0 0 [])).bufsz.toNat < (cached (engine 0xFF1 0 0 [])).addr.toNat + 16 ∧
    (cached (engine 0xFF1 0 0 [])).KeyCacheValid := ⟨by decide, by decide, test_cached_is_valid _ rfl⟩

/-- KeyScheduleRecurrence: the l and k words of KEY_A. -/
def scheduleWords : Nat → Word64 × Word64
  | 0 => toWords keyBytesA
  | i + 1 => speckRound (BitVec.ofNat 64 i) (scheduleWords i)
theorem test_witness_schedule : keyBytesA.length = 16 ∧ (scheduleWords 0).2 = le64 (keyBytesA.take 8) ∧
    (scheduleWords 0).1 = le64 (keyBytesA.drop 8) ∧
    ∀ i, i ≤ 30 → ((scheduleWords (i + 1)).1, (scheduleWords (i + 1)).2) =
      speckRound (BitVec.ofNat 64 i) ((scheduleWords i).1, (scheduleWords i).2) :=
  ⟨by decide +kernel, by decide +kernel, by decide +kernel, fun _ _ => rfl⟩

/-- BlockCipherRoundsInvert: the words of each round of V1, and of the inverse rounds. -/
def roundWords (f : Word64 → Word64 × Word64 → Word64 × Word64) (key : Nat → Word64) (b : List Byte) : Nat → Word64 × Word64
  | 0 => toWords b
  | i + 1 => f (key i) (roundWords f key b i)
theorem test_witness_rounds (rk : Vector Word64 32) : ptA.length = 16 ∧
    (∀ (i : Nat) (h : i < 32), roundWords speckRound (fun i => rk.getD i 0#64) ptA (i + 1) =
      speckRound rk[i] (roundWords speckRound (fun i => rk.getD i 0#64) ptA i)) ∧
    ∀ (i : Nat) (h : i < 32), roundWords speckRoundInv (fun i => rk.getD (31 - i) 0#64) ptA (i + 1) =
      speckRoundInv rk[31 - i] (roundWords speckRoundInv (fun i => rk.getD (31 - i) 0#64) ptA i) := by
  refine ⟨by decide +kernel, fun i h => ?_, fun i h => ?_⟩
  · simp [roundWords, Vector.getD, h]
  · simp [roundWords, Vector.getD, show 31 - i < 32 by omega]

/-- BlockWordPacking, BlockXorLaneWise, CbcEncryptionChains, CbcDecryptionChains, CbcDecryptionInvertsEncryption. -/
theorem test_witness_blocks : ctV1.length = 16 ∧ ivA.bytes.length = 16 ∧ (ptA ++ ctV1).length = 16 * 2 ∧
    (ptA ++ ctV1).length % 16 = 0 := by decide +kernel

/-- PadPkcs7Effect, PadX923Effect, PadUnpadRoundTrip, at bl = 255 and bl = 1: the padded message ends with BUF, or passes
it. -/
theorem test_witness_pad : (engine 0xF00 1 0 []).addr.toNat + 1 + (255 - 1 % 255) = 0xFFF ∧
    (engine 0xF01 0 0 []).addr.toNat + 0 + (255 - 0 % 255) = (engine 0xF01 0 0 []).bufsz.toNat ∧
    (engine 0xFFF 0 0 []).addr.toNat + 0 + (1 - 0 % 1) = (engine 0xFFF 0 0 []).bufsz.toNat ∧
    (engine 0xFFF 1 0 []).bufsz.toNat < (engine 0xFFF 1 0 []).addr.toNat + 1 + (1 - 1 % 1) := by decide

/-- UnpadPkcs7Effect and CbcdecPkcs7Effect: each clause of the checks, at L = BUF's last block. -/
theorem test_witness_unpad_lengths : (engine 0xFF1 16 0 []).bufsz.toNat < (engine 0xFF1 16 0 []).addr.toNat + 16 ∧
    (engine 0x1000 0 0 []).addr.toNat + (engine 0x1000 0 0 []).len.toNat = (engine 0x1000 0 0 []).bufsz.toNat ∧
    (engine 0x1000 0 0 []).len.toNat = 0 ∧ (engine 0xFF1 15 0 []).addr.toNat + 15 = (engine 0xFF1 15 0 []).bufsz.toNat ∧
    15 % 16 ≠ 0 ∧ idleEngine.addr.toNat + idleEngine.len.toNat = idleEngine.bufsz.toNat ∧ idleEngine.len.toNat % 16 = 0 := by
  decide

/-- A buffer whose last bytes are `tail`. -/
def bytesEnding (tail : List Byte) : Nat → Byte := fun j => (List.replicate (16 - tail.length) 0xAA#8 ++ tail).getD j 0#8

theorem test_witness_padP7 : PadP7Passes (bytesEnding [3#8, 3#8, 3#8]) 16 ∧ ¬PadP7Passes (bytesEnding [3#8, 2#8, 3#8]) 16 ∧
    ¬PadP7Passes (bytesEnding [0#8]) 16 ∧ ¬PadP7Passes (bytesEnding [17#8]) 16 := by
  refine ⟨⟨by decide, by decide, fun j h1 h2 => ?_⟩, fun h => ?_, fun h => ?_, fun h => ?_⟩
  · have : (bytesEnding [3#8, 3#8, 3#8] (16 - 1)).toNat = 3 := by decide
    obtain rfl | rfl : j = 13 ∨ j = 14 := by omega
    all_goals decide
  · exact absurd (h.2.2 14 (by decide) (by decide)) (by decide)
  · exact absurd h.1 (by decide)
  · exact absurd h.2.1 (by decide)
theorem test_witness_padX9 : PadX9Passes (bytesEnding [0#8, 0#8, 3#8]) 16 ∧ ¬PadX9Passes (bytesEnding [0#8, 1#8, 3#8]) 16 ∧
    ¬PadX9Passes (bytesEnding [0#8]) 16 ∧ ¬PadX9Passes (bytesEnding [17#8]) 16 := by
  refine ⟨⟨by decide, by decide, fun j h1 h2 => ?_⟩, fun h => ?_, fun h => ?_, fun h => ?_⟩
  · have : (bytesEnding [0#8, 0#8, 3#8] (16 - 1)).toNat = 3 := by decide
    obtain rfl | rfl : j = 13 ∨ j = 14 := by omega
    all_goals decide
  · exact absurd (h.2.2 14 (by decide) (by decide)) (by decide)
  · exact absurd h.1 (by decide)
  · exact absurd h.2.1 (by decide)

/-- UnpadPkcs7Effect, UnpadX923Effect: messages in BUF that pass and that fail, at bl = 255 and bl = 4. -/
theorem test_witness_unpad_buffers :
    (let s := engine 0xF01 255 0xFFD [2#8, 2#8, 2#8]
     s.addr.toNat + 255 = s.bufsz.toNat ∧ s.len.toNat % 255 = 0 ∧ PadP7Passes (fun j => s.byteAt (0xF01 + j)) 255) ∧
    (let s := engine 0 4 0 [0#8, 0#8, 0#8, 4#8]
     PadX9Passes (fun j => s.byteAt (0 + j)) 4 ∧ ¬PadP7Passes (fun j => s.byteAt (0 + j)) 4) ∧
    (let s := engine 0 4 0 [0#8, 1#8, 0#8, 4#8]
     ¬PadX9Passes (fun j => s.byteAt (0 + j)) 4) := by
  refine ⟨⟨by decide, by decide, by decide +kernel, by decide +kernel, fun j h1 h2 => ?_⟩,
    ⟨⟨by decide +kernel, by decide +kernel, fun j h1 h2 => ?_⟩, fun h => ?_⟩, fun h => ?_⟩
  · have : ((engine 0xF01 255 0xFFD [2#8, 2#8, 2#8]).byteAt (0xF01 + (255 - 1))).toNat = 2 := by decide +kernel
    replace h1 : 255 - ((engine 0xF01 255 0xFFD [2#8, 2#8, 2#8]).byteAt (0xF01 + (255 - 1))).toNat ≤ j := h1
    obtain rfl : j = 253 := by omega
    decide +kernel
  · have hj : j < 3 := by omega
    interval_cases j
    all_goals decide +kernel
  · exact absurd (h.2.2 2 (by decide +kernel) (by decide)) (by decide +kernel)
  · exact absurd (h.2.2 1 (by decide +kernel) (by decide)) (by decide +kernel)

/-- CbcencPkcs7Effect, CbcencX923Effect, CbcCommandRoundTrip, CbcencLongestMessage (V41). -/
theorem test_witness_cbcenc : (cached (engine 0xFF0 15 0xFF0 ptA)).KeyCacheValid ∧
    0xFF0 + 15 + (16 - 15 % 16) = (engine 0xFF0 15 0xFF0 ptA).bufsz.toNat ∧
    (engine 0xFF0 16 0xFF0 ptA).bufsz.toNat < 0xFF0 + 16 + (16 - 16 % 16) ∧
    (engine 0xFF1 0 0 []).bufsz.toNat - 0xFF1 < 16 ∧ 16 ≤ (engine 0xFF0 15 0 []).bufsz.toNat - 0xFF0 ∧
    (engine 0xFF0 15 0 []).len.toNat = 16 * (((engine 0xFF0 15 0 []).bufsz.toNat - 0xFF0) / 16) - 1 :=
  ⟨test_cached_is_valid _ rfl, by decide, by decide, by decide, by decide, by decide⟩

/-- CbcdecPkcs7Effect, CbcdecX923Effect: V32's ciphertext decrypts to a block that passes PKCS7 and fails X9.23. -/
theorem test_witness_cbcdec :
    let Q := cbcDec (expand idleEngine.keyBytes) idleEngine.ivBytes (idleEngine.memRead 0xFF0 16)
    PadP7Passes (fun j => Q.getD j 0#8) 16 ∧ ¬PadX9Passes (fun j => Q.getD j 0#8) 16 := by
  have hQ : cbcDec (expand idleEngine.keyBytes) idleEngine.ivBytes (idleEngine.memRead 0xFF0 16) =
      [0x61#8, 0x62#8, 0x63#8] ++ List.replicate 13 0x0d#8 := by decide +kernel
  intro Q
  simp only [Q, hQ]
  refine ⟨⟨by decide, by decide, fun j h1 h2 => ?_⟩, fun h => ?_⟩
  · have : ((([0x61#8, 0x62#8, 0x63#8] ++ List.replicate 13 0x0d#8).getD (16 - 1) 0#8).toNat) = 13 := by decide
    rw [this] at h1
    have hj : 3 ≤ j ∧ j < 15 := by omega
    obtain ⟨hl, hu⟩ := hj
    interval_cases j
    all_goals decide
  · exact absurd (h.2.2 3 (by decide) (by decide)) (by decide)

/-- CbcdecX923Effect: V33's ciphertext decrypts to a block that passes X9.23 and fails PKCS7. -/
theorem test_witness_cbcdecX923 :
    let Q := cbcDec (expand keyBytesA) ivA.bytes (bytesOfNat 16 0x5fbb5a08e7add4b8c9e5907cf589c221)
    PadX9Passes (fun j => Q.getD j 0#8) 16 ∧ ¬PadP7Passes (fun j => Q.getD j 0#8) 16 := by
  have hQ : cbcDec (expand keyBytesA) ivA.bytes (bytesOfNat 16 0x5fbb5a08e7add4b8c9e5907cf589c221) =
      [0x61#8, 0x62#8, 0x63#8] ++ List.replicate 12 0#8 ++ [0x0d#8] := by decide +kernel
  intro Q
  simp only [Q, hQ]
  refine ⟨⟨by decide, by decide, fun j h1 h2 => ?_⟩, fun h => ?_⟩
  · have : ((([0x61#8, 0x62#8, 0x63#8] ++ List.replicate 12 0#8 ++ [0x0d#8]).getD (16 - 1) 0#8).toNat) = 13 := by decide
    rw [this] at h1
    have hj : 3 ≤ j ∧ j < 15 := by omega
    obtain ⟨hl, hu⟩ := hj
    interval_cases j
    all_goals decide
  · exact absurd (h.2.2 3 (by decide) (by decide)) (by decide)

/-- InvariantKeptByEveryStep, KeyCacheInvariant: a busy state, with a written BUF and a cached key, that meets the
invariant, and steps. -/
theorem test_witness_invariant : (busyWith 2#32 idleEngine).Inv ∧ ∃ t, step (busyWith 2#32 idleEngine) = .next t := by
  refine ⟨⟨by decide, ⟨by decide +kernel, by decide +kernel⟩, ?_, rfl, fun _ => ⟨rfl, rfl⟩, by decide, fun h => absurd rfl h⟩,
    ⟨_, rfl⟩⟩
  exact test_idleEngine_valid.1

/-- KeyCacheInvariant, RoundKeyFileWriters, ResultLengthChangesOnlyAtCompletion: a step that sets KSV, writes RK and RLEN. -/
theorem test_witness_sets_ksv : ∃ t, step (busyWith 2#32 (engine 0 0 0 ptA)) = .next t ∧
    (busyWith 2#32 (engine 0 0 0 ptA)).ksv = false ∧ t.ksv = true ∧ t.rk[2] ≠ (busyWith 2#32 (engine 0 0 0 ptA)).rk[2] ∧
    t.rlen ≠ (busyWith 2#32 (engine 0 0 0 ptA)).rlen :=
  ⟨_, rfl, rfl, rfl, by decide +kernel, by decide +kernel⟩
theorem test_witness_error_leaves_rlen_0 : ∃ t, step (busyWith 9#32 idleEngine) = .next t ∧
    (busyWith 9#32 idleEngine).busy = true ∧ t.busy = false ∧ t.errcode ≠ .noError := ⟨_, rfl, rfl, rfl, by decide +kernel⟩
theorem test_witness_key_write : (writing 0x001C#16 7#32 idleEngine).NextWrites (0x0010 + 4 * 3) 7#32 [] ∧
    (writing 0x0010#16 7#32 idleEngine).NextWrites (0x0010 + 4 * 0) 7#32 [] ∧
    (writing 0x0010#16 7#32 idleEngine).busy = false := ⟨⟨_, rfl, rfl⟩, ⟨_, rfl, rfl⟩, rfl⟩
theorem test_witness_key_read : (reading 0x001C#16 idleEngine).NextReads (0x0010 + 4 * 3) [] := ⟨_, rfl, rfl⟩
theorem test_witness_key_changes : ∃ t, step (writing 0x0010#16 7#32 idleEngine) = .next t ∧
    t.key ≠ (writing 0x0010#16 7#32 idleEngine).key := ⟨_, rfl, by decide⟩
theorem test_witness_iv : (writing 0x002C#16 7#32 idleEngine).NextWrites (0x0020 + 4 * 3) 7#32 [] ∧
    (reading 0x0020#16 idleEngine).NextReads (0x0020 + 4 * 0) [] ∧
    ∃ t, step (writing 0x0020#16 7#32 idleEngine) = .next t ∧ t.iv ≠ (writing 0x0020#16 7#32 idleEngine).iv :=
  ⟨⟨_, rfl, rfl⟩, ⟨_, rfl, rfl⟩, _, rfl, by decide⟩
theorem test_witness_reset : (facing .reset (busyWith 2#32 idleEngine)).NextResets ∧
    (facing .reset (busyWith 2#32 idleEngine)).agenda = .reset :: [] := ⟨⟨_, rfl⟩, rfl⟩

/-- PendingInputsFrozen: a step that leaves a command pending. -/
theorem test_witness_still_busy : ∃ t, step (writing 0x0030#16 7#32 (busyWith 2#32 idleEngine)) = .next t ∧
    (writing 0x0030#16 7#32 (busyWith 2#32 idleEngine)).busy = true ∧ t.busy = true := ⟨_, rfl, rfl, rfl⟩

/-- BytesChangeOnlyWhenWritten: a write of the window's last word changes a byte. -/
theorem test_witness_byte_changes : ∃ t, step (writing 0x1FFC#16 0#32 idleEngine) = .next t ∧
    t.byteAt 0xFFF ≠ (writing 0x1FFC#16 0#32 idleEngine).byteAt 0xFFF := ⟨_, rfl, by decide +kernel⟩

/-- RegisterReads, StatusWriteOneToClear, IntenRegister, AddrAndLenRegisters: the first and the last register, and these. -/
theorem test_witness_register_access : (reading 0x0000#16 idleEngine).NextReads 0x0000 [] ∧
    (reading 0x003C#16 (busyWith 2#32 idleEngine)).NextReads 0x003C [] ∧
    (writing 0x0008#16 6#32 idleEngine).NextWrites 0x0008 6#32 [] ∧ (writing 0x000C#16 1#32 idleEngine).NextWrites 0x000C 1#32 [] ∧
    (reading 0x000C#16 idleEngine).NextReads 0x000C [] ∧ (writing 0x0030#16 7#32 idleEngine).NextWrites 0x0030 7#32 [] ∧
    (writing 0x0034#16 7#32 idleEngine).NextWrites 0x0034 7#32 [] ∧ (reading 0x0030#16 idleEngine).NextReads 0x0030 [] ∧
    (reading 0x0034#16 idleEngine).NextReads 0x0034 [] :=
  ⟨⟨_, rfl, rfl⟩, ⟨_, rfl, rfl⟩, ⟨_, rfl, rfl⟩, ⟨_, rfl, rfl⟩, ⟨_, rfl, rfl⟩, ⟨_, rfl, rfl⟩, ⟨_, rfl, rfl⟩, ⟨_, rfl, rfl⟩,
    ⟨_, rfl, rfl⟩⟩

/-- BufWindow, HolesAndReadOnlyRegisters: the window's first and last word, and the holes' edges. -/
theorem test_witness_window : (1023 : Nat) < idleEngine.bufsz.toNat / 4 ∧
    (reading 0x1000#16 idleEngine).NextReads (0x1000 + 4 * 0) [] ∧ (reading 0x1FFC#16 idleEngine).NextReads (0x1000 + 4 * 1023) [] ∧
    (writing 0x1FFC#16 7#32 (busyWith 2#32 idleEngine)).NextWrites (0x1000 + 4 * 1023) 7#32 [] :=
  ⟨by decide, ⟨_, rfl, rfl⟩, ⟨_, rfl, rfl⟩, ⟨_, rfl, rfl⟩⟩
theorem test_witness_holes : (reading 0x0040#16 idleEngine).NextReads 0x0040 [] ∧ (reading 0x0FFC#16 idleEngine).NextReads 0x0FFC [] ∧
    (writing 0x2000#16 7#32 idleEngine).NextWrites (0x1000 + idleEngine.bufsz.toNat) 7#32 [] ∧
    (writing 0xFFFC#16 7#32 idleEngine).NextWrites 0xFFFC 7#32 [] ∧ (writing 0x003C#16 7#32 idleEngine).NextWrites 0x003C 7#32 [] :=
  ⟨⟨_, rfl, rfl⟩, ⟨_, rfl, rfl⟩, ⟨_, rfl, rfl⟩, ⟨_, rfl, rfl⟩, ⟨_, rfl, rfl⟩⟩

/-- BusErrors, ReadsHaveNoSideEffect, BusAnswersRevealNoKey: accesses that are narrow, misaligned, and served. -/
theorem test_witness_accesses : (accessing idleEngine (.read 16 0x0008#16)).agenda = .access (.read 16 0x0008#16) :: [] ∧
    (8 : Nat) ≠ 32 ∧ (0x0FFF#16).toNat % 4 ≠ 0 ∧ (0xFFFC#16).toNat % 4 = 0 ∧
    ({ idleEngine with agenda := [.access (.read 32 0x0008#16), .access (.read 32 0x0008#16)] } : State).agenda =
      .access (.read 32 0x0008#16) :: .access (.read 32 0x0008#16) :: [] := ⟨rfl, by decide, by decide, by decide, rfl⟩

/-- HostProgramsDriveTheEngine: an idle engine with its turn coming, and the last word of BUF. -/
theorem test_witness_host_program : (facing .engine idleEngine).busy = false ∧
    (facing .engine idleEngine).agenda = .engine :: [] ∧ 4 * 1023 + 4 = (facing .engine idleEngine).bufsz.toNat ∧
    keyBytesA.length = 16 := by decide +kernel

/-- InterruptIsALevel: steps that raise IRQ (a completion; enabling it) and that lower it (an acknowledgement). -/
theorem test_witness_irq :
    (∃ t, step (busyWith 0#32 { idleEngine with doneie := true }) = .next t ∧
      (busyWith 0#32 { idleEngine with doneie := true }).irq = false ∧ t.irq = true) ∧
    (∃ t, step (writing 0x000C#16 1#32 { idleEngine with done := true }) = .next t ∧ t.irq = true) ∧
    (∃ t, step (writing 0x0008#16 2#32 { idleEngine with done := true, doneie := true }) = .next t ∧ t.irq = false) :=
  ⟨⟨_, rfl, rfl, rfl⟩, ⟨_, rfl, rfl⟩, ⟨_, rfl, rfl⟩⟩

end Sys2Proof.Tests
end

/-! # Proofs of the family 10_state.md

First the facts: what a write and a step can do as inductive types with one named constructor per effect, the engine's
steps at the register block, and what the operations keep of each field. Then the statements, tier by tier. -/

namespace Sys2Proof.Machine

/-! ## What a write and a step can do, by name -/

/-- What a served write of `d` at offset `o` does to `s`, guards included (10_state.md R32 to R42): `writeTarget_effect`
ties it to the model. -/
inductive WriteEffect (s : State) (size : Nat) (o : Offset) (d : Word32) : State → Prop
  | discarded (hb : s.busy = true) : WriteEffect s size o d { s with ovr := true }
  | ignored : WriteEffect s size o d s
  | accepted (hb : s.busy = false) : WriteEffect s size o d (s.accept d)
  | status : WriteEffect s size o d (s.writeStatus d)
  | inten : WriteEffect s size o d (s.writeInten d)
  | key (hb : s.busy = false) (i : Fin 4) (ho : o.toNat = 0x0010 + 4 * i.val) :
      WriteEffect s size o d { s with key := s.key.set i d, ksv := false }
  | iv (hb : s.busy = false) (i : Fin 4) (ho : o.toNat = 0x0020 + 4 * i.val) :
      WriteEffect s size o d { s with iv := s.iv.set i d }
  | addr (hb : s.busy = false) : WriteEffect s size o d { s with addr := d }
  | len (hb : s.busy = false) : WriteEffect s size o d { s with len := d }
  | window (hb : s.busy = false) (a : Nat) (ha : a + 4 ≤ size) : WriteEffect s size o d (s.memWrite a (bytesLe32 d))

theorem State.writeTarget_effect (s : State) (size : Nat) (o : Offset) (d : Word32) :
    WriteEffect s size o d (s.writeTarget (target size o) d) := by
  rcases s.writeTarget_cases size o d with ⟨hb, -, e⟩ | e | ⟨hb, -, e⟩ | ⟨-, e⟩ | ⟨-, e⟩ | ⟨hb, i, ho, e⟩ |
    ⟨hb, i, ho, e⟩ | ⟨hb, -, e⟩ | ⟨hb, -, e⟩ | ⟨hb, h, h', e⟩ <;> rw [e]
  · exact .discarded hb
  · exact .ignored
  · exact .accepted hb
  · exact .status
  · exact .inten
  · exact .key hb i ho
  · exact .iv hb i ho
  · exact .addr hb
  · exact .len hb
  · exact .window hb _ (by omega)

/-- What one step does to `s` (20_memory.md R87): `step_effect` ties it to the model. -/
inductive StepEffect (s : State) : State → Prop
  | idle (rest : List Event) : StepEffect s { s with agenda := rest }
  | command (rest : List Event) {i : Instr} {t : State} (hb : s.busy = true) (hd : decode s.cmd = .command i)
      (ho : CommandOutcome i { s with agenda := rest } t) : StepEffect s t
  | illegal (rest : List Event) (hb : s.busy = true) : StepEffect s (({ s with agenda := rest } : State).raise .illegal)
  | answered (rest : List Event) (r : BusResponse) : StepEffect s (s.answered rest r)
  | written (rest : List Event) {o : Offset} {d : Word32} {u : State} (ha : s.agenda = .access (.write 32 o d) :: rest)
      (hw : WriteEffect { s with agenda := rest } s.bufSize o d u) :
      StepEffect s { u with response := some .writeDone }
  | reset (rest : List Event) (ha : s.agenda = .reset :: rest) :
      StepEffect s ({ s with agenda := rest } : State).resetStep

theorem step_effect {s t : State} (h : step s = .next t) : StepEffect s t := by
  rcases step_inversion h with ⟨rest, -, rfl⟩ | ⟨rest, hb, i, hd, ho⟩ | ⟨rest, why, hb, -, rfl⟩ | ⟨rest, r, rfl⟩ |
    ⟨rest, o, d, ha, -, rfl⟩ | ⟨rest, ha, rfl⟩
  · exact .idle rest
  · exact .command rest hb hd ho
  · exact .illegal rest hb
  · exact .answered rest r
  · exact .written rest ha (State.writeTarget_effect _ _ o d)
  · exact .reset rest ha

/-! ## Steps at the register block -/

/-- Below 0x0040 the register map alone says what an offset selects (10_state.md R32). -/
theorem target_register {size : Nat} {o : Offset} (h : o.toNat < 0x0040) : target size o = registerTarget o.toNat := by
  simp [target, h]

theorem registerTarget_key (i : Fin 4) : registerTarget (0x0010 + 4 * i.val) = .key i := by
  fin_cases i <;> rfl

theorem registerTarget_iv (i : Fin 4) : registerTarget (0x0020 + 4 * i.val) = .iv i := by
  fin_cases i <;> rfl

/-- The aligned offsets from KEY0 to KEY3 are those of the four registers (10_state.md R32). -/
theorem exists_keyRegister {off : Nat} (hlo : 0x0010 ≤ off) (hhi : off ≤ 0x001C) (h4 : off % 4 = 0) :
    ∃ i : Fin 4, off = 0x0010 + 4 * i.val :=
  ⟨⟨(off - 0x0010) / 4, by omega⟩, by dsimp only; omega⟩

/-- The step at a read of a register: its value is the answer, and nothing else changes. -/
theorem step_read_register {s : State} {off : Nat} {rest : List Event} (h : s.NextReads off rest) (h4 : off % 4 = 0)
    (hlt : off < 0x0040) : step s = .next (s.answered rest (.readData (s.readTarget (registerTarget off)))) := by
  obtain ⟨o, rfl, e⟩ := step_read h h4
  rw [e, target_register hlt]

/-- A write is performed while idle, and in either state at a target that stays writable (10_state.md R32). -/
theorem State.writeTarget_performed {s : State} {t : Target} (h : s.busy = false ∨ t.frozenWhileBusy = false)
    (d : Word32) : s.writeTarget t d = s.performWrite d t := by
  rcases h with h | h <;> simp [State.writeTarget, h]

/-- Performing a write and answering it commute. -/
theorem State.performWrite_answered (s : State) (d : Word32) (t : Target) (rest : List Event) :
    ({ ({ s with agenda := rest } : State).performWrite d t with response := some .writeDone } : State) =
      (s.answered rest .writeDone).performWrite d t := by
  cases t <;> rfl

/-- The step at a write that is performed, by the target its offset selects. -/
theorem step_write_performed {s : State} {off : Nat} {d : Word32} {rest : List Event} {t : Target}
    (h : s.NextWrites off d rest) (h4 : off % 4 = 0) (ht : ∀ o : Offset, o.toNat = off → target s.bufSize o = t)
    (hp : s.busy = false ∨ t.frozenWhileBusy = false) :
    step s = .next ((s.answered rest .writeDone).performWrite d t) := by
  obtain ⟨o, ho, e⟩ := step_write h h4
  rw [e, ht o ho, State.writeTarget_performed (s := { s with agenda := rest }) hp, State.performWrite_answered]

/-- The step at a write of a register that is performed. -/
theorem step_write_register {s : State} {off : Nat} {d : Word32} {rest : List Event} (h : s.NextWrites off d rest)
    (h4 : off % 4 = 0) (hlt : off < 0x0040) (hp : s.busy = false ∨ (registerTarget off).frozenWhileBusy = false) :
    step s = .next ((s.answered rest .writeDone).performWrite d (registerTarget off)) :=
  step_write_performed h h4 (fun _ ho => ho ▸ target_register (ho ▸ hlt)) hp

/-- The step at a read of a KEY register: the answer is 0 (10_state.md R36). -/
theorem step_read_key {s : State} {i : Fin 4} {rest : List Event} (h : s.NextReads (0x0010 + 4 * i.val) rest) :
    step s = .next (s.answered rest (.readData 0#32)) := by
  rw [step_read_register h (by omega) (by omega), registerTarget_key]; rfl

/-- The step at a write of a KEY register while idle: the register and KSV, and nothing else (10_state.md R36). -/
theorem step_write_key {s : State} {i : Fin 4} {d : Word32} {rest : List Event}
    (h : s.NextWrites (0x0010 + 4 * i.val) d rest) (hb : s.busy = false) :
    step s = .next { s.answered rest .writeDone with key := s.key.set i d, ksv := false } := by
  rw [step_write_register h (by omega) (by omega) (.inl hb), registerTarget_key]; rfl

/-- The step at a read of an IV register (10_state.md R37). -/
theorem step_read_iv {s : State} {i : Fin 4} {rest : List Event} (h : s.NextReads (0x0020 + 4 * i.val) rest) :
    step s = .next (s.answered rest (.readData (s.iv.get i))) := by
  rw [step_read_register h (by omega) (by omega), registerTarget_iv]; rfl

/-- The step at a write of an IV register while idle (10_state.md R37). -/
theorem step_write_iv {s : State} {i : Fin 4} {d : Word32} {rest : List Event}
    (h : s.NextWrites (0x0020 + 4 * i.val) d rest) (hb : s.busy = false) :
    step s = .next { s.answered rest .writeDone with iv := s.iv.set i d } := by
  rw [step_write_register h (by omega) (by omega) (.inl hb), registerTarget_iv]; rfl

/-- The step at a reset, from the next event alone (70_reset_and_hazards.md R340). -/
theorem step_of_nextResets {s : State} (h : s.NextResets) :
    ∃ rest, step s = .next ({ s with agenda := rest } : State).resetStep :=
  h.imp fun _ ha => step_reset ha

/-! ## Four registers and their bytes -/

theorem Words4.get_set_same (q : Words4) (i : Fin 4) (d : Word32) : (q.set i d).get i = d := by
  fin_cases i <;> rfl

theorem Words4.get_set_other (q : Words4) {i k : Fin 4} (h : k ≠ i) (d : Word32) : (q.set i d).get k = q.get k := by
  fin_cases i <;> fin_cases k <;> simp [Words4.set, Words4.get] at h ⊢

/-- The bytes of a register are its byte lanes, lowest first (00_scope.md R11, 20_memory.md R84). -/
theorem bytesLe32_lanes (w : Word32) :
    bytesLe32 w = [w.extractLsb' 0 8, w.extractLsb' 8 8, w.extractLsb' 16 8, w.extractLsb' 24 8] := by
  simp [bytesLe32, bytesOfNat, BitVec.extractLsb', Nat.shiftRight_eq_div_pow, Nat.div_div_eq_div_mul]

/-- Byte `4i + j` of four registers is lane `j` of register `i` (10_state.md R36, R37). -/
theorem Words4.bytes_lane (q : Words4) (i j : Fin 4) :
    q.bytes.getD (4 * i.val + j.val) 0#8 = (q.get i).extractLsb' (8 * j.val) 8 := by
  simp only [Words4.bytes, bytesLe32_lanes]
  fin_cases i <;> fin_cases j <;> rfl

/-! ## What a completion leaves -/

section Outcome

variable {i : Instr} {s t : State}

theorem CommandOutcome.busy (h : CommandOutcome i s t) : t.busy = false := by cases h <;> rfl

theorem CommandOutcome.pend (h : CommandOutcome i s t) : t.pend = none := by cases h <;> rfl

theorem CommandOutcome.iv (h : CommandOutcome i s t) : t.iv = s.iv := by cases h <;> simp

theorem CommandOutcome.bufsz (h : CommandOutcome i s t) : t.bufsz = s.bufsz := by cases h <;> simp

/-- Only KEYCLR changes KEY (10_state.md R36). -/
theorem CommandOutcome.key (h : CommandOutcome i s t) (hi : i ≠ .keyclr) : t.key = s.key := by
  cases h with
  | cleared hk => exact absurd hk hi
  | _ => simp

/-- RK keeps its value, or the command is KEYEXP, a cipher command or KEYCLR and it succeeded (10_state.md R44). -/
theorem CommandOutcome.rk (h : CommandOutcome i s t) :
    t.rk = s.rk ∨ (t.errcode = .noError ∧ (i = .keyexp ∨ IsCipherCommand i ∨ i = .keyclr)) := by
  cases h with
  | error | plain | written => exact .inl rfl
  | expanded hi => exact .inr ⟨rfl, .inl hi⟩
  | ciphered _ _ _ hi => exact .inr ⟨rfl, .inr (.inl hi)⟩
  | cleared hi => exact .inr ⟨rfl, .inr (.inr hi)⟩

/-- KSV is set only by KEYEXP or a cipher command that succeeded (10_state.md R45). -/
theorem CommandOutcome.ksv (h : CommandOutcome i s t) :
    (t.ksv = true → s.ksv = true) ∨ (t.errcode = .noError ∧ (i = .keyexp ∨ IsCipherCommand i)) := by
  cases h with
  | error | plain | written => exact .inl id
  | expanded hi => exact .inr ⟨rfl, .inl hi⟩
  | ciphered _ _ _ hi => exact .inr ⟨rfl, .inr hi⟩
  | cleared => exact .inl (fun h => nomatch h)

theorem CommandOutcome.rlen_of_error (h : CommandOutcome i s t) (he : t.errcode ≠ .noError) : t.rlen = 0#32 := by
  cases h with
  | error => rfl
  | _ => exact absurd rfl he

/-- A result length is at most BUF_SIZE (40_command_cycle.md R144). -/
theorem CommandOutcome.rlen_le (h : CommandOutcome i s t) : t.rlen.toNat ≤ s.bufSize := by
  have le {r : Nat} (hr : r ≤ s.bufSize) : (BitVec.ofNat 32 r).toNat ≤ s.bufSize :=
    (BitVec.toNat_ofNat r 32 ▸ Nat.mod_le r _).trans hr
  cases h with
  | error | expanded | cleared => exact Nat.zero_le _
  | plain _ hr | written _ _ _ _ _ hr | ciphered _ _ _ _ _ _ hr => exact le hr

/-- Every completion keeps the cache invariant: what it writes back is the schedule it used (41_speck.md R179). -/
theorem CommandOutcome.keyCacheValid (h : CommandOutcome i s t) (hs : s.KeyCacheValid) : t.KeyCacheValid := by
  cases h with
  | error | plain | written => exact hs
  | ciphered => exact fun _ => by simpa [State.keyBytes] using State.schedule_eq hs
  | expanded => exact fun _ => rfl
  | cleared => exact fun h => nomatch h

/-- A write of bytes inside BUF keeps its canonical form. -/
theorem State.BufCanonical.memWrite (h : s.BufCanonical) (a : Nat) (v : List Byte) (hv : a + v.length ≤ s.bufSize) :
    (s.memWrite a v).BufCanonical :=
  ⟨Memory.writeBytes_wf h.left a v, Memory.writeBytes_bound h.right a v hv⟩

theorem CommandOutcome.bufCanonical (h : CommandOutcome i s t) (hs : s.BufCanonical) : t.BufCanonical := by
  cases h with
  | error | plain | expanded | cleared => exact hs
  | written a _ v _ hv => exact hs.memWrite a v hv
  | ciphered a _ v _ _ hv => simpa [State.BufCanonical, State.bufSize] using hs.memWrite a v hv

end Outcome

/-! ## What a served write keeps -/

section Write

variable {s t : State} {size : Nat} {o : Offset} {d : Word32}

theorem WriteEffect.rk (h : WriteEffect s size o d t) : t.rk = s.rk := by cases h <;> rfl

theorem WriteEffect.rlen (h : WriteEffect s size o d t) : t.rlen = s.rlen := by cases h <;> rfl

/-- No write ends a pending command. -/
theorem WriteEffect.busy_of_idle (h : WriteEffect s size o d t) (ht : t.busy = false) : s.busy = false := by
  cases h with
  | accepted => exact nomatch ht
  | _ => exact ht

/-- A write of a KEY register clears KSV; no write sets it (10_state.md R36). -/
theorem WriteEffect.ksv (h : WriteEffect s size o d t) (ht : t.ksv = true) : s.ksv = true := by
  cases h with
  | key => exact nomatch ht
  | _ => exact ht

/-- No write breaks the cache invariant: the one that changes KEY clears KSV (10_state.md R36, R45). -/
theorem WriteEffect.keyCacheValid (h : WriteEffect s size o d t) (hs : s.KeyCacheValid) : t.KeyCacheValid := by
  cases h with
  | key => exact fun h => nomatch h
  | _ => exact hs

/-- KEY is changed only by a write of one of its registers while idle (10_state.md R36). -/
theorem WriteEffect.key_ne (h : WriteEffect s size o d t) (hne : t.key ≠ s.key) :
    s.busy = false ∧ ∃ i : Fin 4, o.toNat = 0x0010 + 4 * i.val := by
  cases h with
  | key hb i ho => exact ⟨hb, i, ho⟩
  | _ => exact absurd rfl hne

/-- The IV is changed only by a write of one of its registers while idle (10_state.md R37). -/
theorem WriteEffect.iv_ne (h : WriteEffect s size o d t) (hne : t.iv ≠ s.iv) :
    s.busy = false ∧ ∃ i : Fin 4, o.toNat = 0x0020 + 4 * i.val := by
  cases h with
  | iv hb i ho => exact ⟨hb, i, ho⟩
  | _ => exact absurd rfl hne

end Write

/-! ## The bus and RK -/

section RoundKeys

variable (s : State) (rk : Vector Word64 32)

/-- No answer of the bus depends on RK (10_state.md R44). -/
theorem State.answer_withRk (a : BusAccess) : ({ s with rk := rk } : State).answer a = s.answer a := by
  have read (t : Target) : ({ s with rk := rk } : State).readTarget t = s.readTarget t := by
    cases t with
    | bufWord k => simp only [State.readTarget, State.memRead_congr (s := s) (t := { s with rk := rk }) rfl rfl]
    | _ => rfl
  cases a with
  | read w o => simp only [State.answer, read]; rfl
  | write w o d => rfl

/-- A write does the same for every RK, and leaves it (R44). -/
theorem State.writeTarget_withRk (t : Target) (d : Word32) :
    ({ s with rk := rk } : State).writeTarget t d = { s.writeTarget t d with rk := rk } := by
  have perform : ({ s with rk := rk } : State).performWrite d t = { s.performWrite d t with rk := rk } := by
    cases t <;> rfl
  unfold State.writeTarget
  split
  · rfl
  · exact perform

/-- A bus access does the same for every RK, answer included (R44). -/
theorem State.busAccess_withRk (a : BusAccess) :
    ({ s with rk := rk } : State).busAccess a = { s.busAccess a with rk := rk } := by
  have after : ({ s with rk := rk } : State).afterAccess a = { s.afterAccess a with rk := rk } := by
    cases a with
    | read => rfl
    | write w o d =>
      simp only [State.afterAccess]
      split
      · exact s.writeTarget_withRk rk _ d
      · rfl
  simp only [State.busAccess, after, s.answer_withRk]

/-- A bus access leaves RK: it is the case of `busAccess_withRk` in which the RK put in is the one that is there. -/
theorem State.busAccess_rk (a : BusAccess) : (s.busAccess a).rk = s.rk :=
  (congrArg State.rk (s.busAccess_withRk s.rk a) :)

end RoundKeys

/-! ## The invariant, effect by effect -/

section Invariant

variable {s t : State}

/-- While idle the convention on PEND is that it is empty (log 7). -/
theorem State.pendFrozen_of_idle (hb : s.busy = false) (hp : s.pend = none) : s.PendFrozen := by
  simp [State.PendFrozen, hb, hp]

/-- Every completion leaves the engine idle in a state of the invariant (40_command_cycle.md R144, R145). -/
theorem CommandOutcome.inv {i : Instr} (h : CommandOutcome i s t) (hs : s.Inv) : t.Inv where
  bufSizeLegal := by simpa [State.bufSize, h.bufsz] using hs.bufSizeLegal
  bufCanonical := h.bufCanonical hs.bufCanonical
  keyCacheValid := h.keyCacheValid hs.keyCacheValid
  pendFrozen := State.pendFrozen_of_idle h.busy h.pend
  busyStatusClear := by simp [State.BusyStatusClear, h.busy]
  resultInRange := ⟨by simpa [State.bufSize, h.bufsz] using h.rlen_le, h.rlen_of_error⟩

/-- An error completion, an Illegal word's among them, keeps the invariant: it is an outcome every command has. -/
theorem State.Inv.raise (hs : s.Inv) {c : ErrCode} (hc : c ≠ .noError) : (s.raise c).Inv :=
  (CommandOutcome.error (i := .nop) c hc).inv hs

/-- Every served write keeps the invariant: while BUSY it touches no input, and while idle PEND is empty. -/
theorem WriteEffect.inv {o : Offset} {d : Word32} (h : WriteEffect s s.bufSize o d t) (hs : s.Inv) : t.Inv := by
  have idle (hb : s.busy = false) : s.pend = none := by simpa [State.PendFrozen, hb] using hs.pendFrozen
  cases h with
  | ignored => exact hs
  | discarded | inten => exact { hs with }
  | status =>
    exact { hs with busyStatusClear := fun hb => (hs.busyStatusClear hb).imp_left (by simp [·]) }
  | accepted =>
    exact { hs with
      pendFrozen := rfl
      busyStatusClear := fun _ => ⟨rfl, rfl⟩
      resultInRange := hs.resultInRange.imp_right fun _ h => absurd rfl h }
  | key hb =>
    exact { hs with
      keyCacheValid := fun h => nomatch h
      pendFrozen := State.pendFrozen_of_idle hb (idle hb) }
  | iv hb | addr hb | len hb =>
    exact { hs with pendFrozen := State.pendFrozen_of_idle hb (idle hb) }
  | window hb a ha =>
    exact { hs with
      bufCanonical := hs.bufCanonical.memWrite a _ (by simpa using ha)
      pendFrozen := State.pendFrozen_of_idle hb (idle hb) }

/-- Reset leaves the initial state with this engine's BUF_SIZE (70_reset_and_hazards.md R340). -/
theorem State.Inv.resetStep (hs : s.Inv) : s.resetStep.Inv where
  bufSizeLegal := hs.bufSizeLegal
  bufCanonical := ⟨List.Pairwise.nil, fun _ h => nomatch h⟩
  keyCacheValid := fun h => nomatch h
  pendFrozen := rfl
  busyStatusClear := fun h => nomatch h
  resultInRange := ⟨Nat.zero_le _, fun h => absurd rfl h⟩

/-- The coming events are no part of the invariant. -/
theorem State.Inv.withAgenda (hs : s.Inv) (rest : List Event) : ({ s with agenda := rest } : State).Inv := { hs with }

/-- Neither is the answer to the last access. -/
theorem State.Inv.withResponse (hs : s.Inv) (r : BusResponse) : ({ s with response := some r } : State).Inv :=
  { hs with }

end Invariant

/-! ## What changes KSV and RK -/

section KeyState

variable {s t : State}

theorem step_keyCacheValid (hs : s.KeyCacheValid) (h : step s = .next t) : t.KeyCacheValid := by
  cases step_effect h with
  | idle | illegal | answered => exact hs
  | command _ _ _ ho => exact ho.keyCacheValid hs
  | written _ _ hw => exact hw.keyCacheValid hs
  | reset => exact fun h => nomatch h

/-- A step sets KSV only by completing, without error, a command that writes back a schedule (R45). -/
theorem step_sets_ksv (h : step s = .next t) (hs : s.ksv = false) (ht : t.ksv = true) :
    s.busy = true ∧ t.busy = false ∧ t.errcode = .noError ∧
      ∃ i, decode s.cmd = .command i ∧ (i = .keyexp ∨ IsCipherCommand i) := by
  have hne : ¬ s.ksv = true := by simp [hs]
  cases step_effect h with
  | idle | illegal | answered => exact absurd ht hne
  | written _ _ hw => exact absurd (hw.ksv ht) hne
  | reset => exact nomatch ht
  | command _ hb hd ho =>
    rcases ho.ksv with hk | ⟨he, hi⟩
    · exact absurd (hk ht) hne
    · exact ⟨hb, ho.busy, he, _, hd, hi⟩

/-- A step that changes RK is a reset, or completes without error a command that writes it (R44). -/
theorem step_changes_rk (h : step s = .next t) (hne : t.rk ≠ s.rk) :
    s.NextResets ∨ (s.busy = true ∧ t.busy = false ∧ t.errcode = .noError ∧
      ∃ i, decode s.cmd = .command i ∧ (i = .keyexp ∨ IsCipherCommand i ∨ i = .keyclr)) := by
  cases step_effect h with
  | idle | illegal | answered => exact absurd rfl hne
  | written _ _ hw => exact absurd hw.rk hne
  | reset rest ha => exact .inl ⟨rest, ha⟩
  | command _ hb hd ho =>
    rcases ho.rk with e | ⟨he, hi⟩
    · exact absurd e hne
    · exact .inr ⟨hb, ho.busy, he, _, hd, hi⟩

end KeyState

/-- Membership in the list of the obligations: the commands that write back a schedule. -/
theorem mem_scheduleCommands {i : Instr} (h : i = .keyexp ∨ IsCipherCommand i) :
    i ∈ [Instr.keyexp, .encb, .decb, .cbcencPkcs7, .cbcencX923, .cbcdecPkcs7, .cbcdecX923] := by
  rcases h with rfl | h
  · simp
  · cases i with
    | encb | decb | cbcencPkcs7 | cbcencX923 | cbcdecPkcs7 | cbcdecX923 => simp
    | _ => exact h.elim

theorem getElem_zeroSchedule (i : Nat) (h : i < 32) : zeroSchedule[i] = 0#64 :=
  List.getElem_replicate (a := 0#64) (n := 32) (by simpa using h)

/-! ## STATUS as a number, and LEN in ENCB and DECB -/

/-- STATUS as the sum of its fields in their places (10_state.md R34): no two of them share a bit. -/
theorem State.statusWord_toNat (s : State) :
    s.statusWord.toNat = s.busy.toNat + 2 * s.done.toNat + 4 * s.ovr.toNat + 256 * s.ksv.toNat +
      16 * s.errcode.code.toNat := by
  have fields : ∀ (b d o k : Bool) (c : BitVec 3),
      (flagBit b ||| flagBit d <<< 1 ||| flagBit o <<< 2 ||| c.zeroExtend 32 <<< 4 ||| flagBit k <<< 8).toNat =
        b.toNat + 2 * d.toNat + 4 * o.toNat + 256 * k.toNat + 16 * c.toNat := by decide
  exact fields ..

theorem flagBit_toNat (b : Bool) : (flagBit b).toNat = b.toNat := by cases b <;> rfl

/-- The write-back does the same for every LEN. -/
theorem State.writeBack_withLen (s : State) (n : Word32) :
    ({ s with len := n } : State).writeBack = { s.writeBack with len := n } := by
  unfold State.writeBack; split <;> rfl

/-- ENCB and DECB do the same for every LEN (10_state.md R39). -/
theorem State.cipherBlock_withLen (s : State) (n : Word32) (f : Vector Word64 32 → List Byte → List Byte) :
    ({ s with len := n } : State).cipherBlock f = { s.cipherBlock f with len := n } := by
  rcases s.cipherBlock_cases f with ⟨h, e⟩ | ⟨h, e⟩ <;> rw [e]
  · obtain ⟨-, e'⟩ := (({ s with len := n } : State).cipherBlock_cases f).resolve_right fun ⟨h', _⟩ =>
      absurd h' (not_lt.mpr h)
    rw [e']
    exact congrArg (State.finish · 16) (State.writeBack_withLen (s.memWrite _ _) n)
  · obtain ⟨-, e'⟩ := (({ s with len := n } : State).cipherBlock_cases f).resolve_left fun ⟨h', _⟩ =>
      absurd h' (not_le.mpr h)
    rw [e']; rfl

/-! ## Tier 3 -/

/-- Settles O39, by the effects of a step: an engine's turn and a served write each keep the invariant, a reset
establishes it, and nothing else touches a field of it. -/
theorem invariantKeptByEveryStep : Obligations.InvariantKeptByEveryStep := by
  intro s t hs h
  cases step_effect h with
  | idle rest => exact hs.withAgenda rest
  | command rest _ _ ho => exact ho.inv (hs.withAgenda rest)
  | illegal rest => exact (hs.withAgenda rest).raise (by decide)
  | answered rest r => exact (hs.withAgenda rest).withResponse r
  | written rest _ hw => exact (hw.inv (hs.withAgenda rest)).withResponse _
  | reset rest => exact (hs.withAgenda rest).resetStep

/-! ## Tier 2 -/

/-- Settles O40, from the effects of a step: R45 is kept by each, and only a successful write-back sets KSV. -/
theorem keyCacheInvariant : Obligations.KeyCacheInvariant := by
  refine ⟨fun _ _ => step_keyCacheValid, fun _ => State.schedule_eq, fun s t h hs ht => ?_, fun s i d rest hi hb h => ?_,
    fun s => ⟨_, rfl, rfl⟩, fun s h => ?_⟩
  · obtain ⟨hb, hb', he, i, hd, hi⟩ := step_sets_ksv h hs ht
    exact ⟨hb, hb', he, i, mem_scheduleCommands hi, hd⟩
  · exact ⟨_, step_write_key (i := ⟨i, hi⟩) h hb, rfl⟩
  · obtain ⟨rest, e⟩ := step_of_nextResets h
    exact ⟨_, e, rfl⟩

/-- Settles O41: a step from BUSY to BUSY is an access that is only answered, a discarded write, or a write of STATUS or
INTEN. -/
theorem pendingInputsFrozen : Obligations.PendingInputsFrozen := by
  intro s t h hb ht
  have busy {p : Prop} (hf : s.busy = false) : p := absurd hb (by simp [hf])
  cases step_effect h with
  | command _ _ _ ho => exact absurd ht (by simp [ho.busy])
  | illegal | reset => exact nomatch ht
  | idle | answered => simp
  | written _ _ hw =>
    cases hw with
    | discarded | ignored | status | inten => simp
    | accepted hf | key hf | iv hf | addr hf | len hf | window hf => exact busy hf

/-- Settles O43: the writers of RK from the effects of a step, the bus's blindness to it from `busAccess_withRk`. -/
theorem roundKeyFileWriters : Obligations.RoundKeyFileWriters := by
  refine ⟨fun s t h hne => ?_, fun s rk a rest ha => ?_, getElem_zeroSchedule, fun s h => ?_⟩
  · refine (step_changes_rk h hne).imp_right fun ⟨hb, hb', he, i, hd, hi⟩ => ⟨hb, hb', he, i, ?_, hd⟩
    rcases hi with hi | hi | rfl
    · exact List.mem_append_left [Instr.keyclr] (mem_scheduleCommands (.inl hi))
    · exact List.mem_append_left [Instr.keyclr] (mem_scheduleCommands (.inr hi))
    · simp
  · refine ⟨_, step_access ha, State.busAccess_rk _ a, ?_⟩
    exact (step_access (s := { s with rk := rk }) ha).trans
      (congrArg _ (State.busAccess_withRk { s with agenda := rest } rk a))
  · obtain ⟨rest, e⟩ := step_of_nextResets h
    exact ⟨_, e, getElem_zeroSchedule⟩

/-- Settles O44, from the effects of a step: no write and no answer touches RLEN, and an error completion clears it. -/
theorem resultLengthChangesOnlyAtCompletion : Obligations.ResultLengthChangesOnlyAtCompletion := by
  constructor
  · intro s t h hne
    cases step_effect h with
    | idle | answered => exact absurd rfl hne
    | written _ _ hw => exact absurd hw.rlen hne
    | reset rest ha => exact .inl ⟨rest, ha⟩
    | command _ hb _ ho => exact .inr ⟨hb, ho.busy⟩
    | illegal _ hb => exact .inr ⟨hb, rfl⟩
  · intro s t h hb ht he
    have idle : ¬ s.busy = false := by simp [hb]
    cases step_effect h with
    | idle | answered => exact absurd ht idle
    | command _ _ _ ho => exact ho.rlen_of_error he
    | illegal | reset => rfl
    | written _ _ hw => exact absurd (hw.busy_of_idle ht) idle

/-- Settles O49: lanes, reads and writes by the rules of the register block, the writers of KEY from a step's effects. -/
theorem keyRegisters : Obligations.KeyRegisters := by
  refine ⟨fun s => s.key.bytes_lane, fun _ _ _ => step_read_key, fun s i d rest h hb => ?_, fun s t h hne => ?_, rfl⟩
  · exact ⟨_, step_write_key h hb, s.key.get_set_same i d, fun k hk => s.key.get_set_other hk d, rfl, rfl⟩
  · cases step_effect h with
    | idle | illegal | answered => exact absurd rfl hne
    | reset rest ha => exact .inl ⟨rest, ha⟩
    | command _ hb hd ho =>
      refine .inr (.inl ⟨hb, ?_⟩)
      by_contra hk
      exact hne (ho.key fun hi => hk (hi ▸ hd))
    | written rest ha hw =>
      obtain ⟨hb, i, ho⟩ := hw.key_ne hne
      exact .inr (.inr ⟨hb, i, _, rest, _, ho, ha⟩)

/-- Settles O50 as O49; no command changes the IV. -/
theorem ivRegisters : Obligations.IvRegisters := by
  refine ⟨fun s => s.iv.bytes_lane, fun _ _ _ => step_read_iv, fun s i d rest h hb => ?_, fun s t h hne => ?_, rfl⟩
  · exact ⟨_, step_write_iv h hb, s.iv.get_set_same i d, fun k hk => s.iv.get_set_other hk d, rfl⟩
  · cases step_effect h with
    | idle | illegal | answered => exact absurd rfl hne
    | reset rest ha => exact .inl ⟨rest, ha⟩
    | command _ _ _ ho => exact absurd ho.iv hne
    | written rest ha hw =>
      obtain ⟨hb, i, ho⟩ := hw.iv_ne hne
      exact .inr ⟨hb, i, _, rest, _, ho, ha⟩

/-- Settles O53: a hole selects nothing, and the register map names the rest; a read-only register is never frozen. -/
theorem holesAndReadOnlyRegisters : Obligations.HolesAndReadOnlyRegisters := by
  intro s off d rest _ h4
  refine ⟨fun hole => ?_, fun ro h => ?_, fun hlo hhi h => ?_⟩
  · have unmapped (o : Offset) (ho : o.toNat = off) : target s.bufSize o = .unmapped :=
      target_hole (by omega) (by simp only [State.bufSize]; omega)
    constructor <;> intro h
    · obtain ⟨o, ho, e⟩ := step_read h h4
      rw [e, unmapped o ho]; rfl
    · exact step_write_performed h h4 unmapped (.inr rfl)
  · rcases ro with rfl | rfl | rfl <;> exact step_write_register h h4 (by decide) (.inr rfl)
  · obtain ⟨i, rfl⟩ := exists_keyRegister hlo hhi h4
    exact step_read_key h

/-! ## Tier 1 -/

/-- Settles O45: the register map names the field each offset reads. -/
theorem registerReads : Obligations.RegisterReads := by
  intro s off rest h hlt h4
  refine ⟨_, step_read_register h h4 hlt, ?id, ?cmd, ?status, ?inten, fun hlo hhi => ?key, ?iv0, ?iv1, ?iv2, ?iv3, ?addr,
    ?len, ?rlen, ?bufsz⟩
  case status =>
    rintro rfl
    refine s.statusWord_toNat.trans ?_
    cases s.errcode <;> rfl
  case inten => rintro rfl; exact flagBit_toNat s.doneie
  case key =>
    obtain ⟨i, rfl⟩ := exists_keyRegister hlo hhi h4
    rw [registerTarget_key]; rfl
  all_goals (rintro rfl; rfl)

/-- Settles O47: STATUS is never frozen, and the write is `State.writeStatus`. -/
theorem statusWriteOneToClear : Obligations.StatusWriteOneToClear := by
  intro s w rest h
  have keep (b f : Bool) : (f && !b) = if b then false else f := by cases b <;> simp
  rw [step_write_register h (by decide) (by decide) (.inr rfl), ← keep, ← keep]; rfl

/-- Settles O48: INTEN is never frozen, and holds DONEIE alone. -/
theorem intenRegister : Obligations.IntenRegister :=
  ⟨fun _ _ _ h => step_write_register h (by decide) (by decide) (.inr rfl),
    fun _ _ h => step_read_register h (by decide) (by decide), rfl⟩

/-- Settles O51: ADDR and LEN are plain registers, and the body of ENCB and DECB does not read LEN. -/
theorem addrAndLenRegisters : Obligations.AddrAndLenRegisters := by
  refine ⟨fun s d rest hb => ⟨fun h => ?_, fun h => ?_⟩, fun s rest => ⟨fun h => ?_, fun h => ?_⟩,
    fun s n i hi => ?_, rfl, rfl⟩
  · exact step_write_register h (by decide) (by decide) (.inl hb)
  · exact step_write_register h (by decide) (by decide) (.inl hb)
  · exact step_read_register h (by decide) (by decide)
  · exact step_read_register h (by decide) (by decide)
  · rcases hi with rfl | rfl
    · exact ⟨_, rfl, congrArg _ (s.cipherBlock_withLen n encrypt)⟩
    · exact ⟨_, rfl, congrArg _ (s.cipherBlock_withLen n decrypt)⟩

end Sys2Proof.Machine

/-! # Proofs of the family 20_memory.md

First the facts: little-endian words as numbers and as byte lanes, accesses that are only answered, and the steps at the
BUF window. Then the statements, tier by tier. -/

namespace Sys2Proof.Machine

/-! ## Little-endian words -/

/-- The number a byte sequence spells, as the sum of 00_scope.md R11. -/
theorem natOfBytes_eq_sum (b : List Byte) :
    natOfBytes b = ∑ j ∈ Finset.range b.length, (b.getD j 0#8).toNat * 2 ^ (8 * j) := by
  induction b with
  | nil => rfl
  | cons v b ih =>
    have shift (j : Nat) : ((v :: b).getD (j + 1) 0#8).toNat * 2 ^ (8 * (j + 1)) =
        256 * ((b.getD j 0#8).toNat * 2 ^ (8 * j)) := by
      rw [List.getD_cons_succ, Nat.mul_succ, Nat.pow_add]; ring
    rw [natOfBytes, ih, List.length_cons, Finset.sum_range_succ', Finset.mul_sum]
    simp only [shift, List.getD_cons_zero, Nat.mul_zero, Nat.pow_zero, Nat.mul_one, Nat.add_comm]

/-- Four bytes read as a word lose nothing. -/
theorem le32_toNat {b : List Byte} (h : b.length = 4) : (le32 b).toNat = natOfBytes b := by
  have : natOfBytes b < 2 ^ 32 := by simpa [h] using natOfBytes_lt b
  rw [le32, BitVec.toNat_ofNat, Nat.mod_eq_of_lt this]

/-- Eight bytes read as a block half lose nothing. -/
theorem le64_toNat {b : List Byte} (h : b.length = 8) : (le64 b).toNat = natOfBytes b := by
  have : natOfBytes b < 2 ^ 64 := by simpa [h] using natOfBytes_lt b
  rw [le64, BitVec.toNat_ofNat, Nat.mod_eq_of_lt this]

/-- The eight bytes from entry `k` of a byte sequence, read as a block half. -/
theorem le64_slice_toNat {b : List Byte} {k : Nat} (h : k + 8 ≤ b.length) :
    (le64 ((b.drop k).take 8)).toNat = ∑ j ∈ Finset.range 8, (b.getD (k + j) 0#8).toNat * 2 ^ (8 * j) := by
  have len : ((b.drop k).take 8).length = 8 := by simp; omega
  rw [le64_toNat len, natOfBytes_eq_sum, len]
  refine Finset.sum_congr rfl fun j hj => ?_
  rw [List.getD_eq_getElem?_getD, List.getElem?_take_of_lt (Finset.mem_range.mp hj), List.getElem?_drop,
    List.getD_eq_getElem?_getD]

/-- `FromWords(ToWords(b)) = b` (20_memory.md R85). -/
theorem fromWords_toWords {b : List Byte} (h : b.length = 16) : fromWords (toWords b) = b := by
  have hx : ((b.drop 8).take 8).length = 8 := by simp [h]
  have hy : (b.take 8).length = 8 := by simp [h]
  have rest : (b.drop 8).take 8 = b.drop 8 := List.take_of_length_le (by simp [h])
  rw [fromWords, toWords, bytesLe64_le64 _ hx, bytesLe64_le64 _ hy, rest, List.take_append_drop]

/-- `ToWords(FromWords(x, y)) = (x, y)` (20_memory.md R85). -/
theorem toWords_fromWords (xy : Word64 × Word64) : toWords (fromWords xy) = xy := by
  rw [toWords, fromWords, List.drop_left' (bytesLe64_length _), List.take_left' (bytesLe64_length _),
    List.take_of_length_le (bytesLe64_length _).le, le64_bytesLe64, le64_bytesLe64]

/-- Byte `j` of a word's four is its lane `j` (20_memory.md R84). -/
theorem bytesLe32_getElem (w : Word32) {j : Nat} (h : j < 4) :
    (bytesLe32 w)[j]'(by simpa using h) = w.extractLsb' (8 * j) 8 := by
  simp only [bytesLe32_lanes]
  interval_cases j <;> rfl

/-- Four bytes of BUF read as a word, as the sum of 00_scope.md R11. -/
theorem State.le32_memRead_toNat (s : State) (a : Nat) :
    (le32 (s.memRead a 4)).toNat = (s.byteAt a).toNat + 2 ^ 8 * (s.byteAt (a + 1)).toNat +
      2 ^ 16 * (s.byteAt (a + 2)).toNat + 2 ^ 24 * (s.byteAt (a + 3)).toNat := by
  rw [le32_toNat (s.memRead_length a 4)]
  simp only [State.memRead, natOfBytes, Nat.add_assoc, Nat.reduceAdd]
  omega

/-! ## Accesses that are only answered -/

theorem served_eq_false {width : Nat} {off : Offset} (h : width ≠ 32 ∨ off.toNat % 4 ≠ 0) :
    served width off = false :=
  decide_eq_false (not_and_or.mpr h)

/-- No answer depends on the coming events or on the answer before (20_memory.md R88). -/
theorem State.answer_answered (s : State) (rest : List Event) (r : Option BusResponse) (a : BusAccess) :
    ({ s with agenda := rest, response := r } : State).answer a = s.answer a := by
  have read (t : Target) : ({ s with agenda := rest, response := r } : State).readTarget t = s.readTarget t := by
    cases t <;> rfl
  cases a with
  | read w o => simp only [State.answer, read]; rfl
  | write w o d => rfl

/-- The step at an access that does nothing to the engine: its answer alone. -/
theorem step_answer_only {s : State} {a : BusAccess} {rest : List Event} (h : s.agenda = .access a :: rest)
    (ha : ∀ t : State, t.afterAccess a = t) : step s = .next (s.answered rest (s.answer a)) := by
  rw [step_access h, State.busAccess, ha, State.answer_answered s rest s.response]; rfl

/-- The step at a read of any width and offset (20_memory.md R88). -/
theorem step_read_any {s : State} {width : Nat} {off : Offset} {rest : List Event}
    (h : s.agenda = .access (.read width off) :: rest) :
    step s = .next (s.answered rest (s.answer (.read width off))) :=
  step_answer_only h fun _ => rfl

/-- The step at a read that is not served: a bus error with data 0 (20_memory.md R81). -/
theorem step_read_error {s : State} {width : Nat} {off : Offset} {rest : List Event}
    (h : s.agenda = .access (.read width off) :: rest) (hs : served width off = false) :
    step s = .next (s.answered rest (.readError 0#32)) := by
  rw [step_read_any h, State.answer, if_neg (by simp [hs])]

/-- The step at a write that is not served: a bus error, and nothing is written (20_memory.md R81). -/
theorem step_write_error {s : State} {width : Nat} {off : Offset} {d : Word32} {rest : List Event}
    (h : s.agenda = .access (.write width off d) :: rest) (hs : served width off = false) :
    step s = .next (s.answered rest .writeError) := by
  have unserved : ¬ served width off = true := by simp [hs]
  rw [step_answer_only h fun _ => if_neg unserved, State.answer, if_neg unserved]

/-! ## Discarded writes, and steps at the BUF window -/

/-- The step at a write that is discarded while BUSY: OVR alone (60_exceptions.md R304). -/
theorem step_write_discarded {s : State} {off : Nat} {d : Word32} {rest : List Event} {t : Target}
    (h : s.NextWrites off d rest) (h4 : off % 4 = 0) (ht : ∀ o : Offset, o.toNat = off → target s.bufSize o = t)
    (hb : s.busy = true) (hf : t.frozenWhileBusy = true) :
    step s = .next { s.answered rest .writeDone with ovr := true } := by
  obtain ⟨o, ho, e⟩ := step_write h h4
  rw [e, ht o ho, State.writeTarget, if_pos (by simp [hb, hf])]; rfl

section Window

variable {s : State} {k : Nat} {rest : List Event}

/-- The offset of the window's word `k` selects `BUF[4k..4k+4)` (20_memory.md R83). -/
theorem target_bufWord {size : Nat} (hk : 4 * k + 4 ≤ size) (o : Offset) (ho : o.toNat = 0x1000 + 4 * k) :
    target size o = .bufWord (4 * k) := by
  rw [target_window (by omega) (by omega), ho, Nat.add_sub_cancel_left]

theorem step_read_window (hk : 4 * k + 4 ≤ s.bufSize) (h : s.NextReads (0x1000 + 4 * k) rest) :
    step s = .next (s.answered rest (.readData (if s.busy then 0#32 else le32 (s.memRead (4 * k) 4)))) := by
  obtain ⟨o, ho, e⟩ := step_read h (by omega)
  rw [e, target_bufWord hk o ho, State.readTarget]

theorem step_write_window {w : Word32} (hk : 4 * k + 4 ≤ s.bufSize) (h : s.NextWrites (0x1000 + 4 * k) w rest)
    (hb : s.busy = false) : step s = .next ((s.answered rest .writeDone).memWrite (4 * k) (bytesLe32 w)) :=
  step_write_performed h (by omega) (target_bufWord hk) (.inl hb)

end Window

/-- Byte `j` of a word just written to BUF. -/
theorem State.byteAt_memWrite_bytesLe32 (s : State) (a : Nat) (w : Word32) {j : Nat} (hj : j < 4) :
    (s.memWrite a (bytesLe32 w)).byteAt (a + j) = w.extractLsb' (8 * j) 8 := by
  rw [State.byteAt_memWrite_inside s a _ j (by simpa using hj), bytesLe32_getElem w hj]

theorem State.keepsBytesOutside_memWrite_bytesLe32 (s : State) (a : Nat) (w : Word32) :
    KeepsBytesOutside s (s.memWrite a (bytesLe32 w)) a 4 :=
  fun b hb => s.byteAt_memWrite_outside a _ b (by simpa using hb)

/-! ## Tier 2 -/

/-- Settles O20: both halves are slices of the block, and packing and unpacking a half undo each other. -/
theorem blockWordPacking : Obligations.BlockWordPacking := by
  intro b hb
  refine ⟨?_, le64_slice_toNat hb.ge, fromWords_toWords hb, toWords_fromWords⟩
  have y := le64_slice_toNat (b := b) (k := 0) (by omega)
  simpa only [toWords, List.drop_zero, Nat.zero_add] using y

/-- Settles O52: the offset selects the word at `BUF[4k]`, which is read and written lane by lane, and is frozen while
BUSY. -/
theorem bufWindow : Obligations.BufWindow := by
  intro s k rest _ hk
  have hk : 4 * k + 4 ≤ s.bufSize := by simp only [State.bufSize]; omega
  refine ⟨fun h hb => ?_, fun h hb => ?_, fun w h hb => ?_, fun w h hb => ?_⟩
  · refine ⟨le32 (s.memRead (4 * k) 4), ?_, s.le32_memRead_toNat (4 * k)⟩
    rw [step_read_window hk h, if_neg (by simp [hb])]
  · rw [step_read_window hk h, if_pos hb]
  · exact ⟨_, step_write_window hk h hb, fun j => State.byteAt_memWrite_bytesLe32 _ (4 * k) w,
      State.keepsBytesOutside_memWrite_bytesLe32 (s.answered rest .writeDone) (4 * k) w, rfl⟩
  · exact step_write_discarded h (by omega) (target_bufWord hk) hb rfl

/-! ## Tier 1 -/

/-- Settles O46: a read only gives its answer, and the answer depends neither on the coming events nor on the one
before. -/
theorem readsHaveNoSideEffect : Obligations.ReadsHaveNoSideEffect := by
  intro s width off rest h
  have first := step_read_any h
  refine ⟨_, first, ?_⟩
  rw [run_step 1 first, run_step 0 (step_read_any rfl), run_zero, State.answered, State.answer_answered]; rfl

/-- Settles O54: an access that is not served gets its error and does nothing; a served one is a read or a write of the
bus. -/
theorem busErrors : Obligations.BusErrors := by
  intro s width off d rest
  constructor
  · intro h
    exact ⟨fun ha => step_read_error ha (served_eq_false h), fun ha => step_write_error ha (served_eq_false h)⟩
  · rintro rfl h4
    refine ⟨fun ha => ?_, fun ha => ?_⟩
    · obtain ⟨o, -, e⟩ := step_read ⟨off, rfl, ha⟩ h4
      exact ⟨_, _, e, rfl⟩
    · obtain ⟨o, -, e⟩ := step_write ⟨off, rfl, ha⟩ h4
      exact ⟨_, e, rfl⟩

end Sys2Proof.Machine

/-! # Proofs of the family 30_encoding.md

First the facts: what a word decodes to as a view with one constructor per kind of row, the rows of the opcode map, the
steps that issue a command, and the words a host program writes. Then the statements, tier by tier. -/

namespace Sys2Proof

/-! ## Decoding and encoding -/

/-- What the word `w` decodes to, by kind of opcode (30_encoding.md R114, R115), beside what the commands of that opcode
are encoded as: `decode_view` ties it to the model. -/
inductive DecodeView (w : Word32) : Decoded → Prop
  | reservedBits (h : res1Field w ≠ 0#16 ∨ res0Field w ≠ 0#3) : DecodeView w (.illegal .reservedBits)
  | reservedOpcode (h : 9 ≤ (opcField w).toNat) : DecodeView w (.illegal .reservedOpcode)
  | plain (h1 : res1Field w = 0#16) (h0 : res0Field w = 0#3) (opc : BitVec 4) (hw : opcField w = opc)
      (ho : opc.toNat ≤ 3 ∨ opc.toNat = 8) {i : Instr} (hi : i.wellFormed = true ∧ encode i = formatC 0#8 0#1 opc) :
      DecodeView w (decodePlain w i)
  | padding (h1 : res1Field w = 0#16) (h0 : res0Field w = 0#3) (opc : BitVec 4) (hw : opcField w = opc)
      (ho : opc.toNat = 4 ∨ opc.toNat = 5) {f g : Nat → Instr}
      (hf : ∀ bl ≤ 255, (f bl).wellFormed = true ∧ encode (f bl) = formatC (BitVec.ofNat 8 bl) 0#1 opc)
      (hg : ∀ bl ≤ 255, (g bl).wellFormed = true ∧ encode (g bl) = formatC (BitVec.ofNat 8 bl) 1#1 opc) :
      DecodeView w (decodePadding w f g)
  | cbc (h1 : res1Field w = 0#16) (h0 : res0Field w = 0#3) (opc : BitVec 4) (hw : opcField w = opc)
      (ho : opc.toNat = 6 ∨ opc.toNat = 7) {i j : Instr}
      (hi : i.wellFormed = true ∧ encode i = formatC 0#8 0#1 opc)
      (hj : j.wellFormed = true ∧ encode j = formatC 0#8 1#1 opc) : DecodeView w (decodeCbc w i j)

theorem decode_view (w : Word32) : DecodeView w (decode w) := by
  unfold decode
  split
  next h => exact .reservedBits h
  next h =>
    obtain ⟨h1, h0⟩ : res1Field w = 0#16 ∧ res0Field w = 0#3 := by simpa using h
    have opc {k : BitVec 4} (hk : (opcField w).toNat = k.toNat) : opcField w = k := BitVec.eq_of_toNat_eq hk
    split
    next hk => exact .plain h1 h0 0x0#4 (opc hk) (by decide) ⟨rfl, rfl⟩
    next hk => exact .plain h1 h0 0x1#4 (opc hk) (by decide) ⟨rfl, rfl⟩
    next hk => exact .plain h1 h0 0x2#4 (opc hk) (by decide) ⟨rfl, rfl⟩
    next hk => exact .plain h1 h0 0x3#4 (opc hk) (by decide) ⟨rfl, rfl⟩
    next hk =>
      exact .padding h1 h0 0x4#4 (opc hk) (by decide) (fun _ h => ⟨decide_eq_true h, rfl⟩)
        (fun _ h => ⟨decide_eq_true h, rfl⟩)
    next hk =>
      exact .padding h1 h0 0x5#4 (opc hk) (by decide) (fun _ h => ⟨decide_eq_true h, rfl⟩)
        (fun _ h => ⟨decide_eq_true h, rfl⟩)
    next hk => exact .cbc h1 h0 0x6#4 (opc hk) (by decide) ⟨rfl, rfl⟩ ⟨rfl, rfl⟩
    next hk => exact .cbc h1 h0 0x7#4 (opc hk) (by decide) ⟨rfl, rfl⟩ ⟨rfl, rfl⟩
    next hk => exact .plain h1 h0 0x8#4 (opc hk) (by decide) ⟨rfl, rfl⟩
    next => exact .reservedOpcode (by simp only [imp_false] at *; omega)

/-- SCH is one bit (R111). -/
theorem schField_cases (w : Word32) : schField w = 0#1 ∨ schField w = 1#1 := by
  generalize schField w = b; revert b; decide

/-- A word whose reserved fields are 0 is format C of its OPC and of what its BLK and SCH are (R111). -/
theorem formatC_eq_self {w : Word32} {blk : BitVec 8} {sch : BitVec 1} (h1 : res1Field w = 0#16)
    (h0 : res0Field w = 0#3) (hb : blkField w = blk) (hs : schField w = sch) : formatC blk sch (opcField w) = w := by
  rw [← hb, ← hs, formatC_fields h1 h0]

section

variable {w : Word32} {i j k : Instr} {f g : Nat → Instr}

theorem decodePlain_eq_command :
    decodePlain w i = .command k ↔ schField w = 0#1 ∧ blkField w = 0#8 ∧ i = k := by
  by_cases hs : schField w = 0#1 <;> by_cases hb : blkField w = 0#8 <;> simp [decodePlain, hs, hb]

theorem decodePadding_eq_command :
    decodePadding w f g = .command k ↔
      (schField w = 0#1 ∧ f (blkField w).toNat = k) ∨ (schField w = 1#1 ∧ g (blkField w).toNat = k) := by
  rcases schField_cases w with h | h <;> simp [decodePadding, h]

theorem decodeCbc_eq_command :
    decodeCbc w i j = .command k ↔
      blkField w = 0#8 ∧ ((schField w = 0#1 ∧ i = k) ∨ (schField w = 1#1 ∧ j = k)) := by
  by_cases hb : blkField w = 0#8 <;> rcases schField_cases w with h | h <;> simp [decodeCbc, hb, h]

theorem decodePlain_eq_illegal :
    (∃ why, decodePlain w i = .illegal why) ↔ schField w ≠ 0#1 ∨ blkField w ≠ 0#8 := by
  by_cases hs : schField w = 0#1 <;> by_cases hb : blkField w = 0#8 <;> simp [decodePlain, hs, hb]

theorem decodeCbc_eq_illegal : (∃ why, decodeCbc w i j = .illegal why) ↔ blkField w ≠ 0#8 := by
  by_cases hb : blkField w = 0#8 <;> simp [decodeCbc, hb]

end

/-- A word that decodes to a command is the word of that command, which is well formed (R114). -/
theorem encode_of_decode {w : Word32} {i : Instr} (h : decode w = .command i) :
    i.wellFormed = true ∧ encode i = w := by
  have view := decode_view w
  generalize decode w = d at view h
  have blk : (blkField w).toNat ≤ 255 := Nat.le_of_lt_succ (blkField w).isLt
  have blk_eq : blkField w = BitVec.ofNat 8 (blkField w).toNat := by simp
  cases view with
  | reservedBits | reservedOpcode => exact nomatch h
  | plain h1 h0 opc hw _ hi =>
    subst hw
    obtain ⟨hs, hb, rfl⟩ := decodePlain_eq_command.mp h
    exact hi.imp_right (·.trans (formatC_eq_self h1 h0 hb hs))
  | padding h1 h0 opc hw _ hf hg =>
    subst hw
    rcases decodePadding_eq_command.mp h with ⟨hs, rfl⟩ | ⟨hs, rfl⟩
    · exact (hf _ blk).imp_right (·.trans (formatC_eq_self h1 h0 blk_eq hs))
    · exact (hg _ blk).imp_right (·.trans (formatC_eq_self h1 h0 blk_eq hs))
  | cbc h1 h0 opc hw _ hi hj =>
    subst hw
    rcases decodeCbc_eq_command.mp h with ⟨hb, ⟨hs, rfl⟩ | ⟨hs, rfl⟩⟩
    · exact hi.imp_right (·.trans (formatC_eq_self h1 h0 hb hs))
    · exact hj.imp_right (·.trans (formatC_eq_self h1 h0 hb hs))

/-- The word of a well-formed command decodes to it: `decode` reads back the fields of format C (R111, R114). -/
theorem decode_encode {i : Instr} (h : i.wellFormed = true) : decode (encode i) = .command i := by
  cases i with
  | padPkcs7 bl | padX923 bl | unpadPkcs7 bl | unpadX923 bl =>
    have hbl : bl % 256 = bl := Nat.mod_eq_of_lt (Nat.lt_succ_of_le (of_decide_eq_true h))
    simp [encode, decode, decodePadding, hbl]
  | _ => decide

/-- Decoding and encoding are inverse to each other (R111, R114). -/
theorem decode_eq_command_iff {w : Word32} {i : Instr} :
    decode w = .command i ↔ i.wellFormed = true ∧ encode i = w :=
  ⟨encode_of_decode, fun ⟨hi, hw⟩ => hw ▸ decode_encode hi⟩

/-- Which words are Illegal, by their fields (R115). -/
theorem decode_eq_illegal_iff (w : Word32) :
    (∃ why, decode w = .illegal why) ↔
      res1Field w ≠ 0#16 ∨ res0Field w ≠ 0#3 ∨ 9 ≤ (opcField w).toNat ∨
        (((opcField w).toNat ≤ 3 ∨ (opcField w).toNat = 8) ∧ (schField w ≠ 0#1 ∨ blkField w ≠ 0#8)) ∨
        (((opcField w).toNat = 6 ∨ (opcField w).toNat = 7) ∧ blkField w ≠ 0#8) := by
  have view := decode_view w
  generalize decode w = d at view
  cases view with
  | reservedBits h => exact iff_of_true ⟨_, rfl⟩ (h.imp_right .inl)
  | reservedOpcode h => exact iff_of_true ⟨_, rfl⟩ (.inr (.inr (.inl h)))
  | plain h1 h0 opc hw ho =>
    have not9 : ¬ 9 ≤ opc.toNat := by omega
    have not67 : ¬ (opc.toNat = 6 ∨ opc.toNat = 7) := by omega
    simp [decodePlain_eq_illegal, h1, h0, hw, ho, not9, not67]
  | padding h1 h0 opc hw ho =>
    have not9 : ¬ 9 ≤ opc.toNat := by omega
    have not38 : ¬ (opc.toNat ≤ 3 ∨ opc.toNat = 8) := by omega
    have not67 : ¬ (opc.toNat = 6 ∨ opc.toNat = 7) := by omega
    simp [decodePadding, h1, h0, hw, not9, not38, not67]
  | cbc h1 h0 opc hw ho =>
    have not9 : ¬ 9 ≤ opc.toNat := by omega
    have not38 : ¬ (opc.toNat ≤ 3 ∨ opc.toNat = 8) := by omega
    simp [decodeCbc_eq_illegal, h1, h0, hw, ho, not9, not38]

/-! ## The opcode map -/

/-- Every well-formed command's word selects a row with its mnemonic (R113): the law of each command. -/
theorem encode_selectsRow (i : Instr) : Laws.EncodeSelectsRow.Statement i := by
  cases i with
  | nop => exact Laws.EncodeSelectsRow.nop
  | keyexp => exact Laws.EncodeSelectsRow.keyexp
  | encb => exact Laws.EncodeSelectsRow.encb
  | decb => exact Laws.EncodeSelectsRow.decb
  | padPkcs7 bl => exact Laws.EncodeSelectsRow.padPkcs7 bl
  | padX923 bl => exact Laws.EncodeSelectsRow.padX923 bl
  | unpadPkcs7 bl => exact Laws.EncodeSelectsRow.unpadPkcs7 bl
  | unpadX923 bl => exact Laws.EncodeSelectsRow.unpadX923 bl
  | cbcencPkcs7 => exact Laws.EncodeSelectsRow.cbcencPkcs7
  | cbcencX923 => exact Laws.EncodeSelectsRow.cbcencX923
  | cbcdecPkcs7 => exact Laws.EncodeSelectsRow.cbcdecPkcs7
  | cbcdecX923 => exact Laws.EncodeSelectsRow.cbcdecX923
  | keyclr => exact Laws.EncodeSelectsRow.keyclr

/-- A padding row's mask keeps every field but BLK (R113). -/
theorem fields_paddingMask (w : Word32) :
    res1Field (w &&& 0xFFFF00FF#32) = res1Field w ∧ res0Field (w &&& 0xFFFF00FF#32) = res0Field w ∧
    schField (w &&& 0xFFFF00FF#32) = schField w ∧ opcField (w &&& 0xFFFF00FF#32) = opcField w := by
  simp only [res1Field, res0Field, schField, opcField, BitVec.extractLsb'_and]
  exact ⟨BitVec.and_allOnes, BitVec.and_allOnes, BitVec.and_allOnes, BitVec.and_allOnes⟩

/-- A word selected by a padding row is format C of the row's SCH and OPC and of its own BLK (R113). -/
theorem formatC_of_paddingMask {w : Word32} {sch : BitVec 1} {opc : BitVec 4}
    (h : w &&& 0xFFFF00FF#32 = formatC 0#8 sch opc) :
    formatC (BitVec.ofNat 8 (blkField w).toNat) sch opc = w := by
  obtain ⟨res1, res0, hs, ho⟩ := fields_paddingMask w
  simp only [h, res1Field_formatC, res0Field_formatC, schField_formatC, opcField_formatC] at res1 res0 hs ho
  rw [ho]
  exact formatC_eq_self res1.symm res0.symm (by simp) hs.symm

/-- A word that selects a row is the word of a well-formed command with the row's mnemonic (R113). -/
theorem exists_command_of_row {w : Word32} {row : OpcodeRow} (hrow : row ∈ opcodeTable)
    (h : w &&& row.mask = row.matchBits) :
    ∃ i : Instr, i.wellFormed = true ∧ encode i = w ∧ i.mnemonic = row.mnemonic := by
  have blk : decide (BlockLengthEncodable (blkField w).toNat) = true :=
    decide_eq_true (Nat.le_of_lt_succ (blkField w).isLt)
  have whole {m : Word32} (h : w &&& 0xFFFFFFFF#32 = m) : m = w := by
    rw [← h]; exact BitVec.and_allOnes
  simp only [opcodeTable, List.mem_cons, List.not_mem_nil, or_false] at hrow
  rcases hrow with rfl | rfl | rfl | rfl | rfl | rfl | rfl | rfl | rfl | rfl | rfl | rfl | rfl
  · exact ⟨.nop, rfl, whole h, rfl⟩
  · exact ⟨.keyexp, rfl, whole h, rfl⟩
  · exact ⟨.encb, rfl, whole h, rfl⟩
  · exact ⟨.decb, rfl, whole h, rfl⟩
  · exact ⟨.padPkcs7 _, blk, formatC_of_paddingMask h, rfl⟩
  · exact ⟨.padX923 _, blk, formatC_of_paddingMask h, rfl⟩
  · exact ⟨.unpadPkcs7 _, blk, formatC_of_paddingMask h, rfl⟩
  · exact ⟨.unpadX923 _, blk, formatC_of_paddingMask h, rfl⟩
  · exact ⟨.cbcencPkcs7, rfl, whole h, rfl⟩
  · exact ⟨.cbcencX923, rfl, whole h, rfl⟩
  · exact ⟨.cbcdecPkcs7, rfl, whole h, rfl⟩
  · exact ⟨.cbcdecX923, rfl, whole h, rfl⟩
  · exact ⟨.keyclr, rfl, whole h, rfl⟩

/-- Two rows that agree on the bits both masks look at are the same row (R113). -/
theorem opcodeTable_disjoint : ∀ r₁ ∈ opcodeTable, ∀ r₂ ∈ opcodeTable,
    r₁.matchBits &&& r₂.mask = r₂.matchBits &&& r₁.mask → r₁ = r₂ := by
  decide

end Sys2Proof

namespace Sys2Proof.Machine

/-! ## Issuing a command -/

/-- The step at the engine's turn. -/
theorem step_engine {s : State} {rest : List Event} (h : s.agenda = .engine :: rest) :
    step s = ({ s with agenda := rest } : State).engineTurn := by
  rw [step, h]; rfl

/-- A run of one step of any machine is the step. -/
theorem core_run_one (M : Host.Core) (s : M.State) : M.run 1 s = M.step s := by
  cases h : M.step s <;> simp [Host.Core.run, h]

/-- The engine's turn with a command in CMD (40_command_cycle.md R143). -/
theorem State.engineTurn_command {s : State} {i : Instr} (hb : s.busy = true) (hd : decode s.cmd = .command i) :
    s.engineTurn = exec i s := by
  simp [State.engineTurn, State.commandWord, hb, hd]

/-- The engine's turn with an Illegal word in CMD (40_command_cycle.md R151). -/
theorem State.engineTurn_illegal {s : State} {why : IllegalWord} (hb : s.busy = true)
    (hd : decode s.cmd = .illegal why) : s.engineTurn = .next (s.raise .illegal) := by
  simp [State.engineTurn, State.commandWord, State.completeIllegal, hb, hd]

/-- The step at a write of CMD while idle: the word is accepted (40_command_cycle.md R141). -/
theorem step_write_cmd {s : State} {w : Word32} {rest : List Event} (h : s.NextWrites 0x0004 w rest)
    (hb : s.busy = false) : step s = .next ((s.answered rest .writeDone).accept w) :=
  step_write_register h (by decide) (by decide) (.inl hb)

/-- A word written to CMD while idle with the engine's turn after it: the turn, in the state acceptance leaves. -/
theorem run_write_cmd {s : State} {w : Word32} {rest : List Event} (h : s.NextWrites 0x0004 w (.engine :: rest))
    (hb : s.busy = false) : core.run 2 s = ((s.answered rest .writeDone).accept w).engineTurn := by
  have turn := step_engine (s := (s.answered (.engine :: rest) .writeDone).accept w) rfl
  exact (run_step 1 (step_write_cmd h hb)).trans ((core_run_one core _).trans turn)

/-! ## The words of a host program -/

/-- Four bytes read as a word and spelt again. -/
theorem bytesLe32_le32 {b : List Byte} (h : b.length = 4) : bytesLe32 (le32 b) = b := by
  rw [bytesLe32, le32_toNat h, ← h, bytesOfNat_natOfBytes]

/-- The first four bytes of a sequence are the bytes of a word. -/
theorem exists_bytesLe32_append {b : List Byte} {n : Nat} (h : b.length = 4 + n) :
    ∃ (w : Word32) (rest : List Byte), b = bytesLe32 w ++ rest ∧ rest.length = n := by
  refine ⟨le32 (b.take 4), b.drop 4, ?_, by simp [h]⟩
  rw [bytesLe32_le32 (by simp [h]), List.take_append_drop]

/-- Sixteen bytes are the bytes of four registers. -/
theorem Words4.exists_bytes_eq {b : List Byte} (h : b.length = 16) : ∃ q : Words4, q.bytes = b := by
  obtain ⟨w0, b, rfl, h12⟩ := exists_bytesLe32_append (n := 12) h
  obtain ⟨w1, b, rfl, h8⟩ := exists_bytesLe32_append (n := 8) h12
  obtain ⟨w2, b, rfl, h4⟩ := exists_bytesLe32_append (n := 4) h8
  obtain ⟨w3, b, rfl, h0⟩ := exists_bytesLe32_append (n := 0) h4
  obtain rfl := List.length_eq_zero_iff.mp h0
  exact ⟨⟨w0, w1, w2, w3⟩, by simp [Words4.bytes]⟩

/-- The words of a byte sequence, from its first four bytes on (30_encoding.md R118). -/
@[simp] theorem wordsOf_bytesLe32_append (w : Word32) (b : List Byte) :
    wordsOf (bytesLe32 w ++ b) = w :: wordsOf b := by
  have first : wordsOf (bytesLe32 w ++ b) = le32 (bytesLe32 w) :: wordsOf b := rfl
  rw [first, le32_bytesLe32]

@[simp] theorem wordsOf_bytesLe32 (w : Word32) : wordsOf (bytesLe32 w) = [w] := by
  simpa [wordsOf] using wordsOf_bytesLe32_append w []

/-- The words of the bytes of four registers are the registers. -/
theorem wordsOf_bytes (q : Words4) : wordsOf q.bytes = [q.w0, q.w1, q.w2, q.w3] := by
  simp [Words4.bytes]

/-- The coming write of a host program's `WR` (30_encoding.md R118). -/
theorem State.hosting_nextWrites (s : State) {off : Nat} (h : off < 0x10000) (d : Word32) (p : List BusAccess) :
    (s.hosting (wr off d :: p)).NextWrites off d (p.map Event.access ++ s.agenda) :=
  ⟨BitVec.ofNat 16 off, Nat.mod_eq_of_lt h, rfl⟩

/-- Four steps in a row. -/
theorem run_four {s₀ s₁ s₂ s₃ s₄ : State} (h₀ : step s₀ = .next s₁) (h₁ : step s₁ = .next s₂) (h₂ : step s₂ = .next s₃)
    (h₃ : step s₃ = .next s₄) : core.run 4 s₀ = .next s₄ :=
  (run_step 3 h₀).trans <| (run_step 2 h₁).trans <| (run_step 1 h₂).trans (run_step 0 h₃)

/-- What writes of KEY registers that have left `q` in them do to an idle engine (10_state.md R36): `step_wr_key` ties it
to the model. -/
def State.withKey (s : State) (q : Words4) : State :=
  { s.answered s.agenda .writeDone with key := q, ksv := false }

/-- What writes of IV registers that have left `q` in them do to an idle engine (10_state.md R37): `step_wr_iv` ties it to
the model. -/
def State.withIv (s : State) (q : Words4) : State := { s.answered s.agenda .writeDone with iv := q }

section Registers

variable {s : State} (hb : s.busy = false) (i : Fin 4) (d : Word32) (p : List BusAccess)
include hb

/-- A host program's write of a KEY register while idle, and what is left of the program. -/
theorem step_wr_key : step (s.hosting (wr (0x0010 + 4 * i.val) d :: p)) =
    .next ((s.withKey (s.key.set i d)).hosting p) :=
  step_write_key (s.hosting_nextWrites (by omega) d p) hb

/-- A host program's write of an IV register while idle, and what is left of the program. -/
theorem step_wr_iv : step (s.hosting (wr (0x0020 + 4 * i.val) d :: p)) =
    .next ((s.withIv (s.iv.set i d)).hosting p) :=
  step_write_iv (s.hosting_nextWrites (by omega) d p) hb

end Registers

/-- While idle, SETKEY's four writes load KEY and clear KSV, and change nothing else (30_encoding.md R118). -/
theorem run_setKey {s : State} (hb : s.busy = false) (q : Words4) :
    core.run 4 (s.hosting (setKey q.bytes)) = .next (s.withKey q) := by
  rw [setKey, wordsOf_bytes]
  exact run_four (step_wr_key hb 0 q.w0 _)
    (step_wr_key (s := s.withKey _) hb 1 q.w1 _)
    (step_wr_key (s := s.withKey _) hb 2 q.w2 _)
    (step_wr_key (s := s.withKey _) hb 3 q.w3 [])

/-- While idle, SETIV's four writes load the IV and change nothing else (30_encoding.md R118). -/
theorem run_setIv {s : State} (hb : s.busy = false) (q : Words4) :
    core.run 4 (s.hosting (setIv q.bytes)) = .next (s.withIv q) := by
  rw [setIv, wordsOf_bytes]
  exact run_four (step_wr_iv hb 0 q.w0 _)
    (step_wr_iv (s := s.withIv _) hb 1 q.w1 _)
    (step_wr_iv (s := s.withIv _) hb 2 q.w2 _)
    (step_wr_iv (s := s.withIv _) hb 3 q.w3 [])

/-- While idle, WRBUF of a word's four bytes at a word of BUF writes them there (30_encoding.md R118). -/
theorem run_wrBuf {s : State} {k : Nat} (hb : s.busy = false) (hsize : Config.BufSizeLegal s.bufSize)
    (hk : 4 * k + 4 ≤ s.bufSize) (w : Word32) :
    core.run 1 (s.hosting (wrBuf (4 * k) (bytesLe32 w))) =
      .next ((s.answered s.agenda .writeDone).memWrite (4 * k) (bytesLe32 w)) := by
  obtain ⟨-, -, hmax⟩ := hsize
  rw [wrBuf, wordsOf_bytesLe32]
  exact run_step 0 (step_write_window hk (s.hosting_nextWrites (by omega) w []) hb)

/-! ## Tier 3 -/

/-- Settles O1: `decode_encode` reads the fields back, `encode_of_decode` goes through the kinds of row. -/
theorem decodeEncodeAgree : Obligations.DecodeEncodeAgree :=
  ⟨fun _ => decode_encode, fun _ _ => encode_of_decode⟩

/-! ## Tier 2 -/

/-- Settles O2: a word decodes to a command exactly when it is its word (O1), and a command's word is what its row
selects. -/
theorem decodeFollowsOpcodeMap : Obligations.DecodeFollowsOpcodeMap := by
  refine ⟨fun w m => ⟨?_, ?_⟩, fun w r₁ hr₁ r₂ hr₂ h₁ h₂ => ?_, by decide, by decide, by decide⟩
  · rintro ⟨i, hd, rfl⟩
    obtain ⟨hi, rfl⟩ := encode_of_decode hd
    obtain ⟨row, hrow, hm, hsel⟩ := encode_selectsRow i hi
    exact ⟨row, hrow, hm, beq_iff_eq.mp hsel⟩
  · rintro ⟨row, hrow, rfl, hsel⟩
    obtain ⟨i, hi, rfl, hm⟩ := exists_command_of_row hrow hsel
    exact ⟨i, decode_encode hi, hm⟩
  · exact opcodeTable_disjoint r₁ hr₁ r₂ hr₂ (by rw [← h₁, ← h₂]; ac_rfl)

/-- Settles O3: the fields of `decode_eq_illegal_iff` as numbers, and the engine's turn after acceptance raises
ILLEGAL. -/
theorem illegalWordsCompleteWithIllegal : Obligations.IllegalWordsCompleteWithIllegal := by
  intro w opc sch blk
  constructor
  · simp only [decode_eq_illegal_iff, ne_eq, ← BitVec.toNat_inj, res1Field_toNat, res0Field_toNat, opcField_toNat,
      schField_toNat, blkField_toNat, BitVec.toNat_ofNat, Nat.zero_mod]
    omega
  · rintro s rest ⟨why, hd⟩ hb h
    exact ⟨none, (run_write_cmd h hb).trans (State.engineTurn_illegal rfl hd)⟩

/-- Settles O58: each expansion is its accesses in turn, and each access a step of the bus; ISSUE's second step is the
engine's turn. -/
theorem hostProgramsDriveTheEngine : Obligations.HostProgramsDriveTheEngine := by
  refine fun s hb => ⟨fun b hlen => ?_, fun b hlen => ?_, fun k b hsize hk hlen => ?_, fun i rest hi ha => ?_⟩
  · obtain ⟨q, rfl⟩ := Words4.exists_bytes_eq hlen
    exact ⟨_, run_setKey hb q, rfl, rfl, rfl⟩
  · obtain ⟨q, rfl⟩ := Words4.exists_bytes_eq hlen
    exact ⟨_, run_setIv hb q, rfl, rfl⟩
  · obtain ⟨w, rfl⟩ : ∃ w, bytesLe32 w = b := ⟨_, bytesLe32_le32 hlen⟩
    refine ⟨_, run_wrBuf hb hsize hk w, ?_, State.keepsBytesOutside_memWrite_bytesLe32 _ (4 * k) w⟩
    simpa using State.memRead_memWrite (s.answered s.agenda .writeDone) (4 * k) (bytesLe32 w)
  · have h := s.hosting_nextWrites (off := 0x0004) (by decide) (encode i) []
    rw [ha] at h
    exact (run_write_cmd h hb).trans (State.engineTurn_command rfl (decode_encode hi))

/-! ## Tier 1 -/

/-- Settles O4: by O1, a word decodes to a command when it is that command's word. -/
theorem sampleWordsDecode : Obligations.SampleWordsDecode := by
  simp only [Obligations.SampleWordsDecode, decode_eq_command_iff]
  decide

end Sys2Proof.Machine

/-! # Proofs of the family 40_command_cycle.md

First the facts: what a completion keeps, the inputs a command reads, the engine's turn and how long a command can stay
pending, and the XOR of blocks. Then the statements, tier by tier. -/

namespace Sys2Proof.Machine

/-! ## What a completion keeps -/

section Completion

variable {i : Instr} {s t : State}

theorem CommandOutcome.done (h : CommandOutcome i s t) : t.done = true := by cases h <;> rfl

/-- No command touches a register of the host's or a field of the model's own (40_command_cycle.md R143 to R145). -/
theorem CommandOutcome.keepsHostRegisters (h : CommandOutcome i s t) : KeepsHostRegisters s t := by
  cases h <;> constructor <;> simp

/-- An error completion is the only outcome with an error code (40_command_cycle.md R145). -/
theorem CommandOutcome.errorState_of_error (h : CommandOutcome i s t) (he : t.errcode ≠ .noError) :
    t = s.errorState t.errcode none := by
  cases h with
  | error c => exact s.raise_eq_errorState c
  | plain | written | ciphered | expanded | cleared => exact absurd rfl he

end Completion

/-! ## The inputs of a command -/

/-- The two states agree in the inputs of a command (40_command_cycle.md R142), and in the schedule it would use
(41_speck.md R177). -/
structure SameInputs (s₁ s₂ : State) : Prop where
  key : s₁.key = s₂.key
  iv : s₁.iv = s₂.iv
  addr : s₁.addr = s₂.addr
  len : s₁.len = s₂.len
  bufsz : s₁.bufsz = s₂.bufsz
  buf : s₁.buf = s₂.buf
  epoch : s₁.epoch = s₂.epoch
  schedule : s₁.schedule = s₂.schedule

/-- The two states agree in the result of a command: the code, the length, BUF and KEY. -/
structure SameResult (t₁ t₂ : State) : Prop where
  errcode : t₁.errcode = t₂.errcode
  rlen : t₁.rlen = t₂.rlen
  buf : t₁.buf = t₂.buf
  key : t₁.key = t₂.key

section Inputs

variable {s₁ s₂ : State} (h : SameInputs s₁ s₂)
include h

theorem SameInputs.operandAddr : s₁.operandAddr = s₂.operandAddr := congrArg BitVec.toNat h.addr

theorem SameInputs.operandLen : s₁.operandLen = s₂.operandLen := congrArg BitVec.toNat h.len

theorem SameInputs.ivBytes : s₁.ivBytes = s₂.ivBytes := congrArg Words4.bytes h.iv

theorem SameInputs.fits (e : Nat) : s₁.fits e = s₂.fits e := by
  simp only [State.fits, State.bufSize, h.bufsz]

theorem SameInputs.memRead (a n : Nat) : s₁.memRead a n = s₂.memRead a n := State.memRead_congr h.buf h.epoch a n

/-- The same bytes written to both states leave the same inputs. -/
theorem SameInputs.memWrite (a : Nat) (v : List Byte) : SameInputs (s₁.memWrite a v) (s₂.memWrite a v) :=
  { h with buf := congrArg (·.writeBytes a v) h.buf }

/-- Two states with the same inputs complete with the same result, with or without an error. -/
theorem SameInputs.complete (c : ErrCode) (r : Nat) : SameResult (s₁.complete c r) (s₂.complete c r) :=
  ⟨rfl, rfl, h.buf, h.key⟩

/-- The write-back before the completion is no part of the result. -/
theorem SameInputs.writeBack_finish (r : Nat) : SameResult (s₁.writeBack.finish r) (s₂.writeBack.finish r) :=
  ⟨rfl, rfl, by simpa using h.buf, by simpa using h.key⟩

theorem SameInputs.cipherBlock (f : Vector Word64 32 → List Byte → List Byte) :
    SameResult (s₁.cipherBlock f) (s₂.cipherBlock f) := by
  simp only [State.cipherBlock, State.blockAt, h.operandAddr, h.fits, h.schedule, h.memRead]
  split
  · exact (h.memWrite _ _).writeBack_finish 16
  · exact h.complete .range 0

theorem SameInputs.padMessage (sch : Scheme) (bl : Nat) : SameResult (s₁.padMessage sch bl) (s₂.padMessage sch bl) := by
  simp only [State.padMessage, h.operandAddr, h.operandLen, h.fits]
  split_ifs
  · exact h.complete .config 0
  · exact (h.memWrite _ _).complete .noError _
  · exact h.complete .range 0

theorem SameInputs.unpadMessage (sch : Scheme) (bl : Nat) :
    SameResult (s₁.unpadMessage sch bl) (s₂.unpadMessage sch bl) := by
  simp only [State.unpadMessage, h.operandAddr, h.operandLen, h.fits, h.memRead]
  split_ifs
  · exact h.complete .config 0
  · exact h.complete .wctl 0
  · cases unpad sch (s₂.memRead s₂.operandAddr s₂.operandLen) with
    | none => exact h.complete .wpad 0
    | some m => exact h.complete .noError m
  · exact h.complete .range 0

theorem SameInputs.cbcEncrypt (sch : Scheme) : SameResult (s₁.cbcEncrypt sch) (s₂.cbcEncrypt sch) := by
  simp only [State.cbcEncrypt, h.operandAddr, h.operandLen, h.ivBytes, h.fits, h.schedule, h.memRead]
  split
  · exact (h.memWrite _ _).writeBack_finish _
  · exact h.complete .range 0

theorem SameInputs.cbcDecrypt (sch : Scheme) : SameResult (s₁.cbcDecrypt sch) (s₂.cbcDecrypt sch) := by
  simp only [State.cbcDecrypt, h.operandAddr, h.operandLen, h.ivBytes, h.fits, h.schedule, h.memRead]
  split_ifs
  · exact h.complete .wctl 0
  · cases unpad sch (cbcDec s₂.schedule s₂.ivBytes (s₂.memRead s₂.operandAddr s₂.operandLen)) with
    | none => exact h.complete .wpad 0
    | some m => exact (h.memWrite _ _).writeBack_finish m
  · exact h.complete .range 0

/-- From the same inputs every command gives the same result (40_command_cycle.md R142). -/
theorem SameInputs.exec (i : Instr) :
    ∃ t₁ t₂, exec i s₁ = .next t₁ ∧ exec i s₂ = .next t₂ ∧ SameResult t₁ t₂ := by
  cases i with
  | nop => exact ⟨_, _, rfl, rfl, h.complete .noError 0⟩
  | keyexp => exact ⟨_, _, rfl, rfl, rfl, rfl, h.buf, h.key⟩
  | encb => exact ⟨_, _, rfl, rfl, h.cipherBlock encrypt⟩
  | decb => exact ⟨_, _, rfl, rfl, h.cipherBlock decrypt⟩
  | padPkcs7 bl => exact ⟨_, _, rfl, rfl, h.padMessage .pkcs7 bl⟩
  | padX923 bl => exact ⟨_, _, rfl, rfl, h.padMessage .x923 bl⟩
  | unpadPkcs7 bl => exact ⟨_, _, rfl, rfl, h.unpadMessage .pkcs7 bl⟩
  | unpadX923 bl => exact ⟨_, _, rfl, rfl, h.unpadMessage .x923 bl⟩
  | cbcencPkcs7 => exact ⟨_, _, rfl, rfl, h.cbcEncrypt .pkcs7⟩
  | cbcencX923 => exact ⟨_, _, rfl, rfl, h.cbcEncrypt .x923⟩
  | cbcdecPkcs7 => exact ⟨_, _, rfl, rfl, h.cbcDecrypt .pkcs7⟩
  | cbcdecX923 => exact ⟨_, _, rfl, rfl, h.cbcDecrypt .x923⟩
  | keyclr => exact ⟨_, _, rfl, rfl, rfl, rfl, h.buf, rfl⟩

end Inputs

/-- Valid caches of one KEY are one schedule, whatever RK and KSV are (10_state.md R45). -/
theorem State.schedule_eq_of_key {s₁ s₂ : State} (h₁ : s₁.KeyCacheValid) (h₂ : s₂.KeyCacheValid)
    (hk : s₁.key = s₂.key) : s₁.schedule = s₂.schedule := by
  rw [State.schedule_eq h₁, State.schedule_eq h₂, State.keyBytes, State.keyBytes, hk]

/-! ## The engine's turn, and how long a command can stay pending -/

/-- The step with no event coming is the engine's turn (log 5). -/
theorem step_no_event {s : State} (h : s.agenda = []) : step s = s.engineTurn := by
  rw [step, h]

/-- While idle the engine's turn changes nothing (log 5). -/
theorem State.engineTurn_idle {s : State} (hb : s.busy = false) : s.engineTurn = .next s := by
  simp [State.engineTurn, hb]

/-- The engine's turn leaves the engine idle, whatever it finds (40_command_cycle.md R143). -/
theorem State.engineTurn_leaves_idle (s : State) : ∃ t, s.engineTurn = .next t ∧ t.busy = false := by
  rcases s.engineTurn_cases with ⟨hb, e⟩ | ⟨-, i, -, e⟩ | ⟨-, why, -, e⟩ <;> rw [e]
  · exact ⟨s, rfl, hb⟩
  · obtain ⟨t, ht, ho⟩ := exec_outcome s i
    exact ⟨t, ht, ho.busy⟩
  · exact ⟨_, rfl, rfl⟩

theorem WriteEffect.agenda {s t : State} {size : Nat} {o : Offset} {d : Word32} (h : WriteEffect s size o d t) :
    t.agenda = s.agenda := by cases h <;> rfl

/-- A bus access leaves the coming events. -/
theorem State.busAccess_agenda (s : State) (a : BusAccess) : (s.busAccess a).agenda = s.agenda := by
  rcases busAccess_cases s a with e | ⟨o, d, -, -, e⟩ <;> rw [e]
  exact (s.writeTarget_effect s.bufSize o d).agenda

/-- A step leaves the engine idle, or uses up one of the coming events (20_memory.md R87, log 5). -/
theorem step_idle_or_shortens (s : State) :
    ∃ t, step s = .next t ∧ (t.busy = false ∨ t.agenda.length < s.agenda.length) := by
  cases ha : s.agenda with
  | nil =>
    obtain ⟨t, ht, hb⟩ := s.engineTurn_leaves_idle
    exact ⟨t, (step_no_event ha).trans ht, .inl hb⟩
  | cons e rest =>
    cases e with
    | engine =>
      obtain ⟨t, ht, hb⟩ := ({ s with agenda := rest } : State).engineTurn_leaves_idle
      exact ⟨t, (step_engine ha).trans ht, .inl hb⟩
    | access a => exact ⟨_, step_access ha, .inr (by rw [State.busAccess_agenda]; exact Nat.lt_succ_self _)⟩
    | reset => exact ⟨_, step_reset ha, .inl rfl⟩

/-- The engine is idle after at most one step more than there are coming events (log 5). -/
theorem exists_run_idle (s : State) :
    ∃ k ≤ s.agenda.length + 1, ∃ t, core.run k s = .next t ∧ t.busy = false := by
  obtain ⟨t, ht, hb | hlt⟩ := step_idle_or_shortens s
  · exact ⟨1, by omega, t, run_step 0 ht, hb⟩
  · obtain ⟨k, hk, u, hu, hb⟩ := exists_run_idle t
    exact ⟨k + 1, by omega, u, (run_step k ht).trans hu, hb⟩
termination_by s.agenda.length

/-! ## The XOR of blocks -/

/-- Byte `j` of a block XOR (40_command_cycle.md R147). -/
theorem getElem_xorBlock (p q : List Byte) {j : Nat} (hp : j < p.length) (hq : j < q.length) :
    (xorBlock p q)[j]'(by simp [hp, hq]) = p[j] ^^^ q[j] :=
  List.getElem_zipWith

/-- The XOR with a sequence that is long enough undoes itself (R147). -/
theorem xorBlock_xorBlock_cancel {p q : List Byte} (h : p.length ≤ q.length) : xorBlock (xorBlock p q) q = p := by
  refine List.ext_getElem (by simp [h]) fun j _ hj => ?_
  have hq : j < q.length := hj.trans_le h
  rw [getElem_xorBlock _ _ (by simp [hj, hq]) hq, getElem_xorBlock _ _ hj hq, BitVec.xor_assoc, BitVec.xor_self,
    BitVec.xor_zero]

/-! ## Tier 2 -/

/-- Settles O8, from the outcomes of a command: each is a completion, and the only one with a code is the error one. -/
theorem commandErrorsArePrecise : Obligations.CommandErrorsArePrecise := by
  intro i s
  obtain ⟨t, ht, ho⟩ := exec_outcome s i
  exact ⟨t, ht, ho.busy, ho.done, ho.keepsHostRegisters, ho.rlen_le, fun he => ⟨none, ho.errorState_of_error he⟩⟩

/-- Settles O9: with valid caches of one KEY the schedules agree as well, and every command's body reads only these
inputs. -/
theorem resultDependsOnInputsOnly : Obligations.ResultDependsOnInputsOnly := by
  intro i s₁ s₂ hc₁ hc₂ hkey hiv haddr hlen hbufsz hbuf hepoch
  have inputs : SameInputs s₁ s₂ :=
    ⟨hkey, hiv, haddr, hlen, hbufsz, hbuf, hepoch, State.schedule_eq_of_key hc₁ hc₂ hkey⟩
  obtain ⟨t₁, t₂, e₁, e₂, result⟩ := inputs.exec i
  exact ⟨t₁, t₂, e₁, e₂, result.errcode, result.rlen, result.buf, result.key⟩

/-- Settles O10, by induction on the number of coming events: each step that leaves the engine BUSY uses up one. -/
theorem pendingCommandCompletes : Obligations.PendingCommandCompletes :=
  fun s _ => exists_run_idle s

/-! ## Tier 1 -/

/-- Settles O5: CMD is written by acceptance while idle, and is frozen while BUSY. -/
theorem commandAcceptance : Obligations.CommandAcceptance := by
  intro s w rest h
  have cmd (o : Offset) (ho : o.toNat = 0x0004) : target s.bufSize o = .cmd := by
    rw [target_register (by omega), ho]; rfl
  exact ⟨step_write_cmd h, fun hb => step_write_discarded h (by decide) cmd hb rfl⟩

/-- Settles O6: in both cases the step is the engine's turn in `s₀`, which has the BUSY and CMD of `s`. -/
theorem stepRunsThePendingCommand : Obligations.StepRunsThePendingCommand := by
  intro s s₀ h
  obtain ⟨turn, hbusy, hcmd⟩ : step s = s₀.engineTurn ∧ s.busy = s₀.busy ∧ s.cmd = s₀.cmd := by
    rcases h with ⟨ha, rfl⟩ | ⟨rest, ha, rfl⟩
    · exact ⟨step_no_event ha, rfl, rfl⟩
    · exact ⟨step_engine ha, rfl, rfl⟩
  rw [turn, hbusy, hcmd]
  exact ⟨fun i => State.engineTurn_command, fun why hb hd => ⟨none, State.engineTurn_illegal hb hd⟩,
    State.engineTurn_idle⟩

/-- Settles O12: by O3, a word with OPC 0 and another bit set has a field that makes it Illegal; NOP is the completion
alone. -/
theorem nopEffect : Obligations.NopEffect := by
  refine ⟨by decide, fun w hopc hw => ?_, fun s => ⟨none, rfl⟩⟩
  obtain ⟨illegal_iff, -⟩ := illegalWordsCompleteWithIllegal w
  have hw : w.toNat ≠ 0 := fun h => hw (BitVec.eq_of_toNat_eq h)
  exact illegal_iff.mpr (by omega)

/-- Settles O28: the XOR of the blocks is the XOR of their bytes in place. -/
theorem blockXorLaneWise : Obligations.BlockXorLaneWise := by
  intro p q hp hq
  refine ⟨by simp [hp, hq], fun j hj => ?_, xorBlock_xorBlock_cancel (hp.trans hq.symm).le⟩
  have hp : j < p.length := by omega
  have hq : j < q.length := by omega
  rw [List.getD_eq_getElem _ _ (by simp [hp, hq]), List.getD_eq_getElem _ _ hp, List.getD_eq_getElem _ _ hq,
    getElem_xorBlock p q hp hq]

end Sys2Proof.Machine

/-! # Proofs of the family 41_speck.md

First the facts: rotations, the round and its inverse, the words of the schedule, the 32 rounds of a block, and what a
cipher command that succeeds leaves. Then the statements, tier by tier. -/

namespace Sys2Proof.Machine

/-! ## Rotations -/

/-- The model's right rotation is the library's (00_scope.md R10). -/
theorem rotr64_eq_rotateRight (a : Word64) {r : Nat} (h : r < 64) : rotr64 a r = a.rotateRight r :=
  (BitVec.rotateRight_eq_rotateRightAux_of_lt h).symm

/-- The model's left rotation is the library's (00_scope.md R10). -/
theorem rotl64_eq_rotateLeft (a : Word64) {r : Nat} (h : r < 64) : rotl64 a r = a.rotateLeft r :=
  (BitVec.rotateLeft_eq_rotateLeftAux_of_lt h).symm

/-- A right rotation undoes the left rotation: bit `i` comes back from `r` places up, or from the wrapped end. -/
theorem rotateRight_rotateLeft {w : Nat} (x : BitVec w) (r : Nat) : (x.rotateLeft r).rotateRight r = x := by
  refine BitVec.eq_of_getElem_eq fun i hi => ?_
  have hr : r % w < w := Nat.mod_lt r (Nat.zero_lt_of_lt hi)
  rw [BitVec.getElem_rotateRight]
  by_cases h : i < w - r % w
  · rw [dif_pos h, BitVec.getElem_rotateLeft, dif_neg (by omega)]
    congr 1; omega
  · rw [dif_neg h, BitVec.getElem_rotateLeft, dif_pos (by omega)]
    congr 1; omega

/-- A left rotation undoes the right rotation. -/
theorem rotateLeft_rotateRight {w : Nat} (x : BitVec w) (r : Nat) : (x.rotateRight r).rotateLeft r = x := by
  refine BitVec.eq_of_getElem_eq fun i hi => ?_
  have hr : r % w < w := Nat.mod_lt r (Nat.zero_lt_of_lt hi)
  rw [BitVec.getElem_rotateLeft]
  by_cases h : i < r % w
  · rw [dif_pos h, BitVec.getElem_rotateRight, dif_neg (by omega)]
    congr 1; omega
  · rw [dif_neg h, BitVec.getElem_rotateRight, dif_pos (by omega)]
    congr 1; omega

/-! ## The round and its inverse -/

section Round

variable (x y k : Word64)

/-- The round's formulas (41_speck.md R171). -/
theorem speckRound_eq : speckRound k (x, y) =
    ((x.rotateRight 8 + y) ^^^ k, y.rotateLeft 3 ^^^ ((x.rotateRight 8 + y) ^^^ k)) := by
  rw [speckRound, rotr64_eq_rotateRight x (by decide), rotl64_eq_rotateLeft y (by decide)]

/-- The inverse round's formulas (41_speck.md R172). -/
theorem speckRoundInv_eq : speckRoundInv k (x, y) =
    (((x ^^^ k) - (y ^^^ x).rotateRight 3).rotateLeft 8, (y ^^^ x).rotateRight 3) := by
  rw [speckRoundInv, rotr64_eq_rotateRight (y ^^^ x) (by decide), rotl64_eq_rotateLeft _ (by decide)]

end Round

/-- The inverse round undoes the round: its XOR with x' gives back the rotated y, its subtraction the rotated x
(41_speck.md R172). -/
theorem speckRoundInv_speckRound (k : Word64) (xy : Word64 × Word64) : speckRoundInv k (speckRound k xy) = xy := by
  obtain ⟨x, y⟩ := xy
  rw [speckRound_eq, speckRoundInv_eq, xor_cancel_right, xor_cancel_right, rotateRight_rotateLeft,
    BitVec.add_sub_cancel, rotateLeft_rotateRight]

/-- The round undoes the inverse round (41_speck.md R172). -/
theorem speckRound_speckRoundInv (k : Word64) (xy : Word64 × Word64) : speckRound k (speckRoundInv k xy) = xy := by
  obtain ⟨x, y⟩ := xy
  rw [speckRoundInv_eq, speckRound_eq, rotateRight_rotateLeft, BitVec.sub_add_cancel, xor_cancel_right,
    rotateLeft_rotateRight, xor_cancel_right]

/-! ## The words of the schedule -/

/-- Entry `n` of the round keys from index `i` on is the second word after `n` rounds of the recurrence that starts at
index `i` (41_speck.md R174). -/
theorem getElem_scheduleFrom (n count i : Nat) (lk : Nat → Word64 × Word64)
    (h : ∀ j, j < n → lk (j + 1) = speckRound (BitVec.ofNat 64 (i + j)) (lk j))
    (hn : n < (scheduleFrom count i (lk 0)).length) : (scheduleFrom count i (lk 0))[n] = (lk n).2 := by
  induction n generalizing count i lk with
  | zero =>
    cases count with
    | zero => exact absurd hn (Nat.not_lt_zero 0)
    | succ count => rfl
  | succ n ih =>
    cases count with
    | zero => exact absurd hn (Nat.not_lt_zero _)
    | succ count =>
      have first : speckRound (BitVec.ofNat 64 i) (lk 0) = lk 1 := (h 0 (Nat.succ_pos n)).symm
      simp only [scheduleFrom, first, List.getElem_cons_succ]
      refine ih count (i + 1) (fun j => lk (j + 1)) (fun j hj => ?_) _
      rw [h (j + 1) (Nat.succ_lt_succ hj), Nat.add_assoc, Nat.add_comm 1 j]

/-- The words of 16 bytes: the last eight, and the first eight (20_memory.md R85). -/
theorem toWords_of_length {b : List Byte} (h : b.length = 16) : toWords b = (le64 (b.drop 8), le64 (b.take 8)) := by
  rw [toWords, List.take_of_length_le (by simp [h])]

/-- The zero key's first three round keys (41_speck.md R180). -/
theorem expand_zeroKey : (expand (List.replicate 16 0#8))[0] = 0#64 ∧ (expand (List.replicate 16 0#8))[1] = 0#64 ∧
    (expand (List.replicate 16 0#8))[2] = 1#64 := by
  decide +kernel

/-! ## The rounds of a block -/

/-- A fold over a list ends at the last of the values it runs through. -/
theorem foldl_eq_of_steps {α β : Type} {f : β → α → β} (l : List α) (v : Nat → β)
    (h : ∀ (i : Nat) (hi : i < l.length), v (i + 1) = f (v i) l[i]) : l.foldl f (v 0) = v l.length := by
  induction l generalizing v with
  | nil => rfl
  | cons a l ih =>
    have first : f (v 0) a = v 1 := (h 0 (Nat.succ_pos _)).symm
    rw [List.foldl_cons, first]
    exact ih (fun i => v (i + 1)) fun i hi => h (i + 1) (Nat.succ_lt_succ hi)

/-- Folding back with inverse steps undoes a fold: the last step is undone first. -/
theorem foldr_foldl_cancel {α β : Type} {f : β → α → β} {g : α → β → β} (h : ∀ a b, g a (f b a) = b) (l : List α)
    (b : β) : l.foldr g (l.foldl f b) = b := by
  induction l generalizing b with
  | nil => rfl
  | cons a l ih => rw [List.foldl_cons, List.foldr_cons, ih, h]

/-- A fold undoes folding back with inverse steps. -/
theorem foldl_foldr_cancel {α β : Type} {f : β → α → β} {g : α → β → β} (h : ∀ a b, f (g a b) a = b) (l : List α)
    (b : β) : l.foldl f (l.foldr g b) = b := by
  induction l with
  | nil => rfl
  | cons a l ih => rw [List.foldr_cons, List.foldl_cons, h, ih]

section Block

variable (rk : Vector Word64 32) {b : List Byte}

/-- Encryption is the 32 rounds in forward order (41_speck.md R178). -/
theorem encrypt_eq_of_rounds {xy : Nat → Word64 × Word64} (h0 : xy 0 = toWords b)
    (h : ∀ (i : Nat) (hi : i < 32), xy (i + 1) = speckRound rk[i] (xy i)) : encrypt rk b = fromWords (xy 32) := by
  have rounds := foldl_eq_of_steps (f := fun xy k => speckRound k xy) rk.toList xy fun i hi => by
    rw [Vector.getElem_toList]; exact h i (by simpa using hi)
  rw [encrypt, ← h0, rounds, Vector.length_toList]

/-- Decryption is the 32 inverse rounds in reverse order (41_speck.md R178). -/
theorem decrypt_eq_of_rounds {xy : Nat → Word64 × Word64} (h0 : xy 0 = toWords b)
    (h : ∀ (i : Nat) (hi : i < 32), xy (i + 1) = speckRoundInv rk[31 - i] (xy i)) :
    decrypt rk b = fromWords (xy 32) := by
  have rounds := foldl_eq_of_steps (f := fun xy k => speckRoundInv k xy) rk.toList.reverse xy fun i hi => by
    simp only [List.getElem_reverse, Vector.getElem_toList, Vector.length_toList]
    exact h i (by simpa using hi)
  rw [List.foldl_reverse, List.length_reverse, Vector.length_toList] at rounds
  rw [decrypt, ← h0, rounds]

/-- Decryption undoes encryption (41_speck.md R178). -/
theorem decrypt_encrypt (h : b.length = 16) : decrypt rk (encrypt rk b) = b := by
  rw [decrypt, encrypt, toWords_fromWords, foldr_foldl_cancel speckRoundInv_speckRound, fromWords_toWords h]

/-- Encryption undoes decryption (41_speck.md R178). -/
theorem encrypt_decrypt (h : b.length = 16) : encrypt rk (decrypt rk b) = b := by
  rw [encrypt, decrypt, toWords_fromWords, foldl_foldr_cancel speckRound_speckRoundInv, fromWords_toWords h]

end Block

/-! ## What a cipher command leaves -/

/-- A successful completion writes these fields (40_command_cycle.md R144). -/
theorem State.completedWith_finish (s : State) (r : Nat) : CompletedWith (s.finish r) .noError r :=
  ⟨rfl, rfl, rfl, rfl⟩

section WriteBack

variable (s : State) (a r : Nat) (v : List Byte)

/-- A cipher command that writes `v` from `a` on touches no register of the host's. -/
theorem State.keepsHostRegisters_writeBack : KeepsHostRegisters s ((s.memWrite a v).writeBack.finish r) := by
  constructor <;> simp

/-- The write-back of a cipher command keeps KEY and leaves its expansion in RK, whether KSV was 1 or 0
(41_speck.md R179). -/
theorem State.holdsSchedule_writeBack (hc : s.KeyCacheValid) :
    HoldsSchedule s ((s.memWrite a v).writeBack.finish r) where
  key := by simp
  ksv := by simp
  rk := by simp [State.schedule_eq hc]

/-- A cipher command that writes `v` from `a` on leaves `v` there: the write-back and the completion keep BUF. -/
theorem State.memRead_memWrite_writeBack : ((s.memWrite a v).writeBack.finish r).memRead a v.length = v := by
  rw [State.memRead_congr (s := s.memWrite a v) (by simp) (by simp), State.memRead_memWrite]

/-- A cipher command that writes `v` from `a` on leaves every other byte. -/
theorem State.keepsBytesOutside_writeBack :
    KeepsBytesOutside s ((s.memWrite a v).writeBack.finish r) a v.length := fun b hb => by
  rw [State.byteAt_congr (s := s.memWrite a v) (by simp) (by simp), State.byteAt_memWrite_outside s a v b hb]

end WriteBack

section BlockCommand

variable {s : State}

/-- ENCB and DECB when the block at ADDR fits (41_speck.md R181, R182). -/
theorem State.cipherBlock_of_fits (hc : s.KeyCacheValid) {f : Vector Word64 32 → List Byte → List Byte}
    (hf : ∀ rk b, (f rk b).length = 16) (h : s.addr.toNat + 16 ≤ s.bufsz.toNat) :
    CompletedWith (s.cipherBlock f) .noError 16 ∧ KeepsHostRegisters s (s.cipherBlock f) ∧
      HoldsSchedule s (s.cipherBlock f) ∧
      (s.cipherBlock f).memRead s.addr.toNat 16 = f (expand s.keyBytes) (s.memRead s.addr.toNat 16) ∧
      KeepsBytesOutside s (s.cipherBlock f) s.addr.toNat 16 := by
  rcases s.cipherBlock_cases f with ⟨-, e⟩ | ⟨hlt, -⟩
  · have written := s.memRead_memWrite_writeBack s.operandAddr 16 (f s.schedule (s.blockAt s.operandAddr))
    have others := s.keepsBytesOutside_writeBack s.operandAddr 16 (f s.schedule (s.blockAt s.operandAddr))
    rw [hf, ← e] at written others
    rw [State.schedule_eq hc] at written
    refine ⟨?_, ?_, ?_, written, others⟩ <;> rw [e]
    · exact State.completedWith_finish _ 16
    · exact s.keepsHostRegisters_writeBack _ 16 _
    · exact s.holdsSchedule_writeBack _ 16 _ hc
  · exact absurd h hlt.not_ge

/-- ENCB and DECB when the block at ADDR would pass the end of BUF (41_speck.md R181, R182). -/
theorem State.cipherBlock_of_not_fits (f : Vector Word64 32 → List Byte → List Byte)
    (h : s.bufsz.toNat < s.addr.toNat + 16) : s.cipherBlock f = s.errorState .range none := by
  rcases s.cipherBlock_cases f with ⟨hle, -⟩ | ⟨-, e⟩
  · exact absurd h hle.not_gt
  · exact e

end BlockCommand

/-! ## Tier 2 -/

/-- Settles O15: the two outcomes of a block command, with `encrypt`. -/
theorem encbEffect : Obligations.EncbEffect :=
  ⟨by decide, fun _ hc => ⟨fun h => ⟨_, rfl, State.cipherBlock_of_fits hc encrypt_length h⟩,
    fun h => ⟨none, congrArg _ (State.cipherBlock_of_not_fits encrypt h)⟩⟩⟩

/-- Settles O16: the two outcomes of a block command, with `decrypt`. -/
theorem decbEffect : Obligations.DecbEffect :=
  ⟨by decide, fun _ hc => ⟨fun h => ⟨_, rfl, State.cipherBlock_of_fits hc decrypt_length h⟩,
    fun h => ⟨none, congrArg _ (State.cipherBlock_of_not_fits decrypt h)⟩⟩⟩

/-- Settles O17: the rules' formulas, and the two inversions. -/
theorem speckRoundAndInverse : Obligations.SpeckRoundAndInverse := fun x y k =>
  ⟨speckRound_eq x y k, speckRoundInv_eq x y k, speckRoundInv_speckRound k (x, y), speckRound_speckRoundInv k (x, y)⟩

/-- Settles O18: the pairs (l_i, k_i) are those the schedule runs through from the key's two words. -/
theorem keyScheduleRecurrence : Obligations.KeyScheduleRecurrence := by
  intro key l k hkey hk hl hstep i hi
  have start : toWords key = (l 0, k 0) := by rw [toWords_of_length hkey, hk, hl]
  have entry := getElem_scheduleFrom i 32 0 (fun j => (l j, k j)) (fun j hj => by
    rw [Nat.zero_add]; exact hstep j (by omega)) (by rw [scheduleFrom_length]; exact hi)
  rw [← start] at entry
  exact entry

/-- Settles O19: the rounds in order, and each of them undone in the reverse order. -/
theorem blockCipherRoundsInvert : Obligations.BlockCipherRoundsInvert := fun rk _ h =>
  ⟨fun _ => encrypt_eq_of_rounds rk, fun _ => decrypt_eq_of_rounds rk, decrypt_encrypt rk h, encrypt_decrypt rk h⟩

/-! ## Tier 1 -/

/-- Settles O13: KEYEXP is the expansion and the completion alone. -/
theorem keyexpEffect : Obligations.KeyexpEffect :=
  ⟨by decide, fun _ => ⟨none, rfl⟩, expand_zeroKey⟩

/-- Settles O14: the all-zero RK and the zero key's schedule differ in entry 2. -/
theorem keyclrEffect : Obligations.KeyclrEffect := by
  refine ⟨by decide, fun s => ⟨none, rfl⟩, fun h => ?_⟩
  obtain ⟨-, -, entry2⟩ := expand_zeroKey
  rw [← h, Vector.getElem_replicate] at entry2
  exact absurd entry2 (by decide)

end Sys2Proof.Machine

/-! # Proofs of the family 42_padding.md

First the facts, each stated once for both schemes: the word of a padding command, the pad length, the check of UNPAD as
a predicate on the bytes of the message, what PAD leaves, and the outcomes of UNPAD in terms of that check. Then the
statements, tier by tier. -/

namespace Sys2Proof.Machine

/-! ## The word and the pad length -/

/-- Format C with the block length `bl`, as a number (30_encoding.md R111). -/
theorem formatC_eq_ofNat {bl : Nat} (h : bl ≤ 255) (sch : BitVec 1) (opc : BitVec 4) :
    formatC (BitVec.ofNat 8 bl) sch opc = BitVec.ofNat 32 (opc.toNat + 16 * sch.toNat + 256 * bl) := by
  refine BitVec.eq_of_toNat_eq ?_
  have hs := sch.isLt
  have ho := opc.isLt
  rw [formatC_toNat, BitVec.toNat_ofNat, BitVec.toNat_ofNat]
  omega

/-- A whole block is added exactly when the message is a multiple of the block length (42_padding.md R220). -/
theorem padLen_eq_self_iff {L bl : Nat} (h : 0 < bl) : padLen L bl = bl ↔ L % bl = 0 := by
  have := Nat.mod_lt L h
  unfold padLen; omega

/-! ## The check of UNPAD -/

/-- The check of 42_padding.md R224 and R225 on the `L` bytes of `D`: the last byte is a pad count that is not 0 and not
above `L`, and the bytes of the padding before it are the scheme's filler. `padPasses_pkcs7` and `padPasses_x923` tie it
to the statements' checks, `unpad_eq_some_iff` to the model. -/
def PadPasses (sch : Scheme) (D : Nat → Byte) (L : Nat) : Prop :=
  (D (L - 1)).toNat ≠ 0 ∧ (D (L - 1)).toNat ≤ L ∧
    ∀ j, L - (D (L - 1)).toNat ≤ j → j + 1 < L → D j = padFiller sch (D (L - 1))

theorem padPasses_pkcs7 : PadPasses .pkcs7 = PadP7Passes := rfl

theorem padPasses_x923 : PadPasses .x923 = PadX9Passes := rfl

/-- The bytes from entry `k` on are all `c`, entry by entry. -/
theorem all_drop_beq_iff (D : List Byte) (k : Nat) (c : Byte) :
    (D.drop k).all (fun b => b == c) = true ↔ ∀ (j : Nat) (hj : j < D.length), k ≤ j → D[j] = c := by
  simp only [List.all_eq_true, List.forall_mem_iff_getElem, List.getElem_drop, List.length_drop, beq_iff_eq]
  constructor
  · intro h j hj hk
    simpa only [Nat.add_sub_cancel' hk] using h (j - k) (by omega)
  · intro h i hi
    exact h (k + i) (by omega) (Nat.le_add_right k i)

/-- UNPAD of bytes that end in `v`: the padding before `v` is what is left of them after the plaintext. -/
theorem unpad_append_singleton (sch : Scheme) (D : List Byte) (v : Byte) :
    unpad sch (D ++ [v]) =
      if v.toNat = 0 ∨ D.length + 1 < v.toNat then none
      else if (D.drop (D.length + 1 - v.toNat)).all (fun b => b == padFiller sch v) then some (D.length + 1 - v.toNat)
      else none := by
  simp only [unpad, List.reverse_append, List.reverse_singleton, List.singleton_append, List.length_append,
    List.length_singleton]
  by_cases hv : v.toNat = 0 ∨ D.length + 1 < v.toNat
  · rw [if_pos hv, if_pos hv]
  · have start : D.length - (v.toNat - 1) = D.length + 1 - v.toNat := by omega
    rw [List.take_reverse, List.all_reverse, start]

/-- UNPAD succeeds exactly when its check passes, and then answers the length before the padding (42_padding.md R224,
R225). -/
theorem unpad_eq_some_iff {sch : Scheme} {D : List Byte} {f : Nat → Byte}
    (hf : ∀ (j : Nat) (h : j < D.length), D[j] = f j) {m : Nat} :
    unpad sch D = some m ↔ PadPasses sch f D.length ∧ D.length - (f (D.length - 1)).toNat = m := by
  rcases List.eq_nil_or_concat' D with rfl | ⟨D, v, rfl⟩
  · have fails : ¬ PadPasses sch f 0 := fun ⟨h0, hle, _⟩ => h0 (Nat.le_zero.mp hle)
    simp [unpad, fails]
  have last : f D.length = v := by
    rw [← hf D.length (by simp), List.getElem_concat_length rfl]
  have front (j : Nat) (h : j < D.length) : D[j] = f j := by
    rw [← hf j (by simp; omega), List.getElem_append_left h]
  have passes : PadPasses sch f (D.length + 1) ↔ ¬ (v.toNat = 0 ∨ D.length + 1 < v.toNat) ∧
      (D.drop (D.length + 1 - v.toNat)).all (fun b => b == padFiller sch v) = true := by
    rw [all_drop_beq_iff, PadPasses, Nat.add_sub_cancel, last, not_or, not_lt, and_assoc]
    refine and_congr_right' (and_congr_right' ?_)
    constructor
    · intro h j hj hk
      rw [front j hj, h j hk (by omega)]
    · intro h j hk hj
      rw [← front j (by omega), h j (by omega) hk]
  rw [unpad_append_singleton, List.length_append, List.length_singleton, passes, Nat.add_sub_cancel, last]
  split_ifs with hv hall
  · simp [hv]
  · simp [hv, hall]
  · simp [hall]

/-! ## What PAD leaves -/

/-- Before its last byte the padding of `n` bytes is the scheme's filler (42_padding.md R221, R222). -/
theorem getElem_padBytes_of_lt (sch : Scheme) {n j : Nat} (hj : j + 1 < n) (h : j < (padBytes sch n).length) :
    (padBytes sch n)[j] = padFiller sch (BitVec.ofNat 8 n) := by
  cases sch with
  | pkcs7 => exact List.getElem_replicate h
  | x923 =>
    have before : j < (List.replicate (n - 1) 0#8).length := by simp; omega
    exact (List.getElem_append_left before).trans (List.getElem_replicate before)

/-- The last byte of the padding is the pad count (42_padding.md R221, R222). -/
theorem getElem_padBytes_last (sch : Scheme) {n : Nat} (h : n - 1 < (padBytes sch n).length) :
    (padBytes sch n)[n - 1] = BitVec.ofNat 8 n := by
  cases sch with
  | pkcs7 => exact List.getElem_replicate h
  | x923 => exact List.getElem_concat_length (by simp) _

/-- What PAD leaves when it succeeds with `n` pad bytes (42_padding.md R226, R227): `State.padMessage_padded` ties it to
the model. -/
structure Padded (s : State) (sch : Scheme) (n : Nat) (t : State) : Prop where
  completed : CompletedWith t .noError (s.operandLen + n)
  hostRegisters : KeepsHostRegisters s t
  keyState : KeepsKeyState s t
  filler : ∀ j, j + 1 < n → t.byteAt (s.operandAddr + s.operandLen + j) = padFiller sch (BitVec.ofNat 8 n)
  last : t.byteAt (s.operandAddr + s.operandLen + (n - 1)) = BitVec.ofNat 8 n
  otherBytes : KeepsBytesOutside s t (s.operandAddr + s.operandLen) n

section Pad

variable {s t : State} {sch : Scheme} {bl n : Nat}

/-- PAD when the padded message fits in BUF (42_padding.md R226, R227). -/
theorem State.padMessage_padded (hbl : 0 < bl)
    (h : s.operandAddr + s.operandLen + padLen s.operandLen bl ≤ s.bufSize) :
    Padded s sch (padLen s.operandLen bl) (s.padMessage sch bl) := by
  rcases s.padMessage_cases sch bl with ⟨h0, -⟩ | ⟨-, -, e⟩ | ⟨-, hlt, -⟩
  · exact absurd h0 hbl.ne'
  · have hn := padLen_pos s.operandLen bl hbl
    rw [e]
    generalize padLen s.operandLen bl = n at hn
    have length := padBytes_length sch n hn
    have byte (j : Nat) (hj : j < (padBytes sch n).length) :=
      s.byteAt_memWrite_inside (s.operandAddr + s.operandLen) _ j hj
    exact {
      completed := State.completedWith_finish _ _
      hostRegisters := by constructor <;> rfl
      keyState := ⟨rfl, rfl, rfl⟩
      filler := fun j hj => (byte j (by omega)).trans (getElem_padBytes_of_lt sch hj _)
      last := (byte (n - 1) (by omega)).trans (getElem_padBytes_last sch _)
      otherBytes := fun b hb => s.byteAt_memWrite_outside _ _ b (by omega) }
  · exact absurd h hlt.not_ge

/-- PAD when the padded message would pass the end of BUF (42_padding.md R226, R227). -/
theorem State.padMessage_of_not_fits (hbl : 0 < bl)
    (h : s.bufSize < s.operandAddr + s.operandLen + padLen s.operandLen bl) :
    s.padMessage sch bl = s.errorState .range none := by
  rcases s.padMessage_cases sch bl with ⟨h0, -⟩ | ⟨-, hle, -⟩ | ⟨-, -, e⟩
  · exact absurd h0 hbl.ne'
  · exact absurd h hle.not_gt
  · exact e

/-- RLEN after PAD is the padded length: one that fits in BUF fits in the register. -/
theorem Padded.rlen_toNat (h : Padded s sch n t) (hfit : s.operandAddr + s.operandLen + n ≤ s.bufSize) :
    t.rlen.toNat = s.operandLen + n := by
  have hsize : s.bufSize < 2 ^ 32 := s.bufsz.isLt
  rw [h.completed.rlen, BitVec.toNat_ofNat, Nat.mod_eq_of_lt (by omega)]

/-- The last byte of the padded message is the pad count. -/
theorem Padded.lastByte (h : Padded s sch n t) (hpos : 0 < n) :
    t.byteAt (s.operandAddr + (s.operandLen + n - 1)) = BitVec.ofNat 8 n := by
  rw [Nat.add_sub_assoc hpos, ← Nat.add_assoc, h.last]

/-- A pad count fits in its byte. -/
theorem toNat_padCount (hn : n ≤ 255) : (BitVec.ofNat 8 n).toNat = n := Nat.mod_eq_of_lt (by omega)

/-- The padded message passes UNPAD's check of the same scheme: the count it reads is the number of pad bytes
(42_padding.md R230). -/
theorem Padded.padPasses (h : Padded s sch n t) (hpos : 0 < n) (hn : n ≤ 255) :
    PadPasses sch (fun j => t.byteAt (s.operandAddr + j)) (s.operandLen + n) := by
  simp only [PadPasses, h.lastByte hpos, toNat_padCount hn]
  refine ⟨hpos.ne', Nat.le_add_left n _, fun j hlo hhi => ?_⟩
  obtain ⟨i, rfl⟩ := Nat.exists_eq_add_of_le (Nat.add_sub_cancel s.operandLen n ▸ hlo)
  rw [← Nat.add_assoc]
  exact h.filler i (by omega)

end Pad

/-! ## The outcomes of UNPAD, by its check -/

/-- UNPAD's errors in their order, and its success: RLEN and the completion alone (42_padding.md R228, R229). -/
theorem exec_unpad_effect {i : Instr} {s : State} {sch : Scheme} {bl a L : Nat} (hbl : 0 < bl)
    (hi : exec i s = .next (s.unpadMessage sch bl)) (ha : s.operandAddr = a) (hL : s.operandLen = L) :
    let D := fun j => s.byteAt (a + j)
    (s.bufSize < a + L → FailsWith i s .range) ∧
    (a + L ≤ s.bufSize → L = 0 ∨ L % bl ≠ 0 → FailsWith i s .wctl) ∧
    (a + L ≤ s.bufSize → L ≠ 0 → L % bl = 0 → ¬ PadPasses sch D L → FailsWith i s .wpad) ∧
    (a + L ≤ s.bufSize → L ≠ 0 → L % bl = 0 → PadPasses sch D L →
      ∃ p, exec i s = .next { s with
        busy := false, done := true, errcode := .noError, rlen := BitVec.ofNat 32 (L - (D (L - 1)).toNat),
        pend := p }) := by
  intro D
  subst ha hL
  have check {m : Nat} : unpad sch (s.memRead s.operandAddr s.operandLen) = some m ↔
      PadPasses sch D s.operandLen ∧ s.operandLen - (D (s.operandLen - 1)).toNat = m := by
    simpa only [State.memRead_length] using unpad_eq_some_iff (s.getElem_memRead s.operandAddr s.operandLen)
  have raised {c : ErrCode} (e : s.unpadMessage sch bl = s.raise c) : FailsWith i s c := ⟨none, hi.trans (congrArg _ e)⟩
  rcases s.unpadMessage_cases sch bl with ⟨h0, -⟩ | ⟨-, hfit, e⟩ | ⟨-, hfit, hlen, e⟩ | ⟨-, hfit, h0, hmod, hu, e⟩ |
    ⟨m, -, hfit, h0, hmod, hu, e⟩
  · exact absurd h0 hbl.ne'
  · have beyond {P : Prop} (h : s.operandAddr + s.operandLen ≤ s.bufSize) : P := absurd h hfit.not_ge
    exact ⟨fun _ => raised e, beyond, beyond, beyond⟩
  · have wrong {P : Prop} (h0 : s.operandLen ≠ 0) (hmod : s.operandLen % bl = 0) : P :=
      hlen.elim (absurd · h0) (absurd hmod ·)
    exact ⟨fun h => absurd hfit h.not_ge, fun _ _ => raised e, fun _ => wrong, fun _ => wrong⟩
  · refine ⟨fun h => absurd hfit h.not_ge, fun _ h => h.elim (absurd · h0) (absurd hmod ·), fun _ _ _ _ => raised e,
      fun _ _ _ passes => ?_⟩
    exact nomatch hu.symm.trans (check.mpr ⟨passes, rfl⟩)
  · obtain ⟨passes, rfl⟩ := check.mp hu
    exact ⟨fun h => absurd hfit h.not_ge, fun _ h => h.elim (absurd · h0) (absurd hmod ·),
      fun _ _ _ fails => absurd passes fails, fun _ _ _ _ => ⟨none, hi.trans (congrArg _ e)⟩⟩

/-- PAD, then UNPAD of the same scheme and block length with LEN set to PAD's RLEN (42_padding.md R230). -/
theorem pad_unpad_roundTrip {padding unpadding : Instr} {s : State} {sch : Scheme} {bl : Nat}
    (hp : exec padding s = .next (s.padMessage sch bl))
    (hu : ∀ t : State, exec unpadding t = .next (t.unpadMessage sch bl)) (hbl : 0 < bl) (hbl' : bl ≤ 255)
    (hfit : s.operandAddr + s.operandLen + padLen s.operandLen bl ≤ s.bufSize) :
    let n := padLen s.operandLen bl
    ∃ t u, exec padding s = .next t ∧ exec unpadding { t with len := t.rlen } = .next u ∧
      t.rlen.toNat = s.operandLen + n ∧ (s.operandLen + n) % bl = 0 ∧ 1 ≤ n ∧ n ≤ bl ∧
      u.errcode = .noError ∧ u.rlen = s.len ∧
      ∀ j, j < s.operandLen → u.byteAt (s.operandAddr + j) = s.byteAt (s.operandAddr + j) := by
  have padded := State.padMessage_padded (sch := sch) hbl hfit
  have hpos := padLen_pos s.operandLen bl hbl
  have hle := padLen_le s.operandLen bl
  have hmod := add_padLen_mod s.operandLen bl hbl
  generalize padLen s.operandLen bl = n at padded hpos hle hmod hfit
  generalize s.padMessage sch bl = t at padded hp
  have hn : n ≤ 255 := hle.trans hbl'
  have addr : t.operandAddr = s.operandAddr := congrArg BitVec.toNat padded.hostRegisters.addr
  have size : t.bufSize = s.bufSize := congrArg BitVec.toNat padded.hostRegisters.bufsz
  have rlen := padded.rlen_toNat hfit
  obtain ⟨-, -, -, succeeds⟩ := exec_unpad_effect hbl (hu { t with len := t.rlen }) addr rlen
  obtain ⟨p, e⟩ := succeeds (by rw [← Nat.add_assoc]; exact hfit.trans size.ge) (by omega) hmod
    (padded.padPasses hpos hn)
  have length : BitVec.ofNat 32
      (s.operandLen + n - (t.byteAt (s.operandAddr + (s.operandLen + n - 1))).toNat) = s.len := by
    rw [padded.lastByte hpos, toNat_padCount hn, Nat.add_sub_cancel, State.operandLen,
      BitVec.ofNat_toNat, BitVec.setWidth_eq]
  exact ⟨t, _, hp, e, rlen, hmod, hpos, hle, rfl, length, fun j hj => padded.otherBytes _ (.inl (by omega))⟩

/-! ## Tier 2 -/

/-- Settles O23: the padding's filler in PKCS7 is the pad count, as its last byte is. -/
theorem padPkcs7Effect : Obligations.PadPkcs7Effect := by
  refine ⟨fun s => ⟨none, rfl⟩, fun s bl hbl hbl' => ⟨formatC_eq_ofNat hbl' 0#1 4#4, fun h => ?_, fun h => ?_⟩⟩
  · have padded := State.padMessage_padded (sch := .pkcs7) hbl h
    refine ⟨_, rfl, padded.completed, padded.hostRegisters, padded.keyState,
      fun j (hj : j < padLen s.operandLen bl) => ?_, padded.otherBytes⟩
    rcases Nat.lt_or_ge (j + 1) (padLen s.operandLen bl) with hlt | hge
    · exact padded.filler j hlt
    · obtain rfl : j = padLen s.operandLen bl - 1 := by omega
      exact padded.last
  · exact ⟨none, congrArg _ (State.padMessage_of_not_fits hbl h)⟩

/-- Settles O24: the padding's filler in X9.23 is 0. -/
theorem padX923Effect : Obligations.PadX923Effect := by
  refine ⟨fun s => ⟨none, rfl⟩, fun s bl hbl hbl' => ⟨formatC_eq_ofNat hbl' 1#1 4#4, fun h => ?_, fun h => ?_⟩⟩
  · have padded := State.padMessage_padded (sch := .x923) hbl h
    refine ⟨_, rfl, padded.completed, padded.hostRegisters, padded.keyState, padded.filler, ?_, padded.otherBytes⟩
    exact (congrArg _ (Nat.add_sub_assoc (padLen_pos s.operandLen bl hbl) _)).trans padded.last
  · exact ⟨none, congrArg _ (State.padMessage_of_not_fits hbl h)⟩

/-- Settles O25: the outcomes of UNPAD, with the PKCS7 check. -/
theorem unpadPkcs7Effect : Obligations.UnpadPkcs7Effect := by
  rw [Obligations.UnpadPkcs7Effect, ← padPasses_pkcs7]
  exact ⟨fun _ => ⟨none, rfl⟩, fun s _ hbl hbl' =>
    ⟨formatC_eq_ofNat hbl' 0#1 5#4, exec_unpad_effect (s := s) (sch := .pkcs7) hbl rfl rfl rfl⟩⟩

/-- Settles O26: the outcomes of UNPAD, with the X9.23 check. -/
theorem unpadX923Effect : Obligations.UnpadX923Effect := by
  rw [Obligations.UnpadX923Effect, ← padPasses_x923]
  exact ⟨fun _ => ⟨none, rfl⟩, fun s _ hbl hbl' =>
    ⟨formatC_eq_ofNat hbl' 1#1 5#4, exec_unpad_effect (s := s) (sch := .x923) hbl rfl rfl rfl⟩⟩

/-- Settles O27: the round trip of either scheme. -/
theorem padUnpadRoundTrip : Obligations.PadUnpadRoundTrip := by
  intro s bl padding unpadding hbl hbl' h a L n hfit
  rcases h with ⟨rfl, rfl⟩ | ⟨rfl, rfl⟩
  · exact pad_unpad_roundTrip (sch := .pkcs7) rfl (fun _ => rfl) hbl hbl' hfit
  · exact pad_unpad_roundTrip (sch := .x923) rfl (fun _ => rfl) hbl hbl' hfit

/-! ## Tier 1 -/

/-- Settles O22: L mod bl is below bl. -/
theorem padLengthArithmetic : Obligations.PadLengthArithmetic := fun L bl hbl _ =>
  ⟨rfl, padLen_pos L bl hbl, padLen_le L bl, padLen_eq_self_iff hbl⟩

end Sys2Proof.Machine

/-! # Proofs of the family 43_cbc.md

First the chaining, block by block, and its inversion; then what a successful CBC command leaves in the state, and the
outcomes of CBCENC and CBCDEC, each stated once for both padding schemes. Then the statements, all of tier 2. -/

namespace Sys2Proof.Machine

/-! ## The chaining -/

/-- A later block is a block of what comes after the first. -/
theorem blockOf_succ (i : Nat) (B : List Byte) : blockOf (i + 1) B = blockOf i (B.drop 16) := by
  rw [blockOf, blockOf, List.drop_drop, Nat.mul_succ, Nat.add_comm]

/-- A block of a byte sequence, by the recursion of the chaining: the first block, or a block of what comes after. -/
theorem blockOf_eq_ite (i : Nat) (B : List Byte) :
    blockOf i B = if i = 0 then B.take 16 else blockOf (i - 1) (B.drop 16) := by
  cases i with
  | zero => rfl
  | succ i => exact blockOf_succ i B

/-- A block of a byte sequence that begins with the block `b`. -/
theorem blockOf_append {b : List Byte} (h : b.length = 16) (i : Nat) (B : List Byte) :
    blockOf i (b ++ B) = if i = 0 then b else blockOf (i - 1) B := by
  rw [blockOf_eq_ite, ← h, List.take_left, List.drop_left]

section Chaining

variable (rk : Vector Word64 32)

/-- CBC encryption from the chain value `chain` on, block by block (43_cbc.md R260). -/
theorem blockOf_cbcEncFrom {i count : Nat} (hi : i < count) (chain P : List Byte) :
    blockOf i (cbcEncFrom rk count chain P) = encrypt rk (xorBlock (blockOf i P)
      (if i = 0 then chain else blockOf (i - 1) (cbcEncFrom rk count chain P))) := by
  induction count generalizing i chain P with
  | zero => exact absurd hi i.not_lt_zero
  | succ count ih =>
    rw [cbcEncFrom, blockOf_append (encrypt_length ..)]
    cases i with
    | zero => rfl
    | succ i =>
      simp only [Nat.succ_ne_zero, if_false, Nat.add_sub_cancel, blockOf_append (encrypt_length ..), blockOf_succ]
      exact ih (Nat.lt_of_succ_lt_succ hi) ..

/-- CBC decryption from the chain value `chain` on, block by block: the chain is in the ciphertext (43_cbc.md R261). -/
theorem blockOf_cbcDecFrom {i count : Nat} (hi : i < count) {chain C : List Byte} (hchain : chain.length = 16)
    (hC : 16 * count ≤ C.length) :
    blockOf i (cbcDecFrom rk count chain C) =
      xorBlock (decrypt rk (blockOf i C)) (if i = 0 then chain else blockOf (i - 1) C) := by
  induction count generalizing i chain C with
  | zero => exact absurd hi i.not_lt_zero
  | succ count ih =>
    rw [cbcDecFrom, blockOf_append (by simp [hchain])]
    cases i with
    | zero => rfl
    | succ i =>
      simp only [Nat.succ_ne_zero, if_false, Nat.add_sub_cancel, blockOf_succ]
      rw [ih (Nat.lt_of_succ_lt_succ hi) (by simp; omega) (by simp; omega), ← blockOf_eq_ite]

/-- Decryption undoes encryption from the same chain value on (43_cbc.md R262). -/
theorem cbcDecFrom_cbcEncFrom {count : Nat} {chain P : List Byte} (hchain : chain.length = 16)
    (hP : P.length = 16 * count) : cbcDecFrom rk count chain (cbcEncFrom rk count chain P) = P := by
  induction count generalizing chain P with
  | zero => exact (List.eq_nil_of_length_eq_zero hP).symm
  | succ count ih =>
    have first : (P.take 16).length = 16 := by simp; omega
    have cipher := encrypt_length rk (xorBlock (P.take 16) chain)
    rw [cbcEncFrom, cbcDecFrom, List.take_left' cipher, List.drop_left' cipher,
      decrypt_encrypt rk (by simp [first, hchain]), xorBlock_xorBlock_cancel (by omega),
      ih cipher (by simp; omega), List.take_append_drop]

/-- CBC decryption undoes CBC encryption of whole blocks (43_cbc.md R262). -/
theorem cbcDec_cbcEnc {iv P : List Byte} (hiv : iv.length = 16) (hP : P.length % 16 = 0) :
    cbcDec rk iv (cbcEnc rk iv P) = P := by
  rw [cbcDec, cbcEnc_length rk iv P hP, cbcEnc, cbcDecFrom_cbcEncFrom rk hiv (by omega)]

end Chaining

/-! ## The padding of a message -/

/-- The padded length is the next multiple of 16 (42_padding.md R220). -/
theorem add_padLen_sixteen (L : Nat) : L + padLen L 16 = 16 * (L / 16 + 1) := by
  unfold padLen; omega

/-- The padding is its filler, then the pad count (42_padding.md R221, R222). -/
theorem padBytes_eq_append (sch : Scheme) {n : Nat} (hpos : 0 < n) :
    padBytes sch n = List.replicate (n - 1) (padFiller sch (BitVec.ofNat 8 n)) ++ [BitVec.ofNat 8 n] := by
  cases sch with
  | pkcs7 => rw [padFiller, ← List.replicate_succ', Nat.sub_add_cancel hpos]; rfl
  | x923 => rfl

/-- UNPAD of a padded message answers the message's length (42_padding.md R230). -/
theorem unpad_append_padBytes (sch : Scheme) (M : List Byte) {n : Nat} (hpos : 0 < n) (hn : n ≤ 255) :
    unpad sch (M ++ padBytes sch n) = some M.length := by
  have front : M.length + (n - 1) + 1 - n = M.length := by omega
  rw [padBytes_eq_append sch hpos, ← List.append_assoc, unpad_append_singleton, toNat_padCount hn,
    List.length_append, List.length_replicate, front, List.drop_left, if_neg (by omega), if_pos (by simp)]

/-- UNPAD's check, on the bytes as the statements about CBCDEC read them (43_cbc.md R265, R266). -/
theorem unpad_eq_some_iff_getD {sch : Scheme} {D : List Byte} {m : Nat} : unpad sch D = some m ↔
    PadPasses sch (fun j => D.getD j 0#8) D.length ∧ D.length - (D.getD (D.length - 1) 0#8).toNat = m :=
  unpad_eq_some_iff fun _ h => (List.getD_eq_getElem D 0#8 h).symm

/-- What CBCENC encrypts begins with the message. -/
theorem State.getElem_paddedMessage (s : State) (sch : Scheme) {j : Nat} (h : j < s.operandLen) :
    (s.paddedMessage sch)[j]'(by rw [State.paddedMessage_length]; omega) = s.byteAt (s.operandAddr + j) :=
  (List.getElem_append_left (by simpa using h)).trans (s.getElem_memRead ..)

/-- UNPAD of what CBCENC encrypts answers LEN. -/
theorem State.unpad_paddedMessage (s : State) (sch : Scheme) : unpad sch (s.paddedMessage sch) = some s.operandLen := by
  have hle := padLen_le s.operandLen 16
  rw [State.paddedMessage, unpad_append_padBytes sch _ (padLen_pos _ 16 (by decide)) (by omega), State.memRead_length]

/-! ## What a CBC command leaves -/

/-- RLEN holds a result length that is not above BUF_SIZE (40_command_cycle.md R144). -/
theorem CompletedWith.rlen_toNat {s t : State} {code : ErrCode} {r : Nat} (h : CompletedWith t code r)
    (hr : r ≤ s.bufSize) : t.rlen.toNat = r := by
  have hsize : s.bufSize < 2 ^ 32 := s.bufsz.isLt
  rw [h.rlen, BitVec.toNat_ofNat, Nat.mod_eq_of_lt (by omega)]

/-- What a CBC command leaves when it succeeds with the `n` bytes `v` at ADDR and the result length `r` (43_cbc.md R263,
R265): `State.rewritten_writeBack` ties it to the model. -/
def Rewritten (s : State) (n : Nat) (v : List Byte) (r : Nat) (t : State) : Prop :=
  CompletedWith t .noError r ∧ KeepsHostRegisters s t ∧ HoldsSchedule s t ∧ t.memRead s.operandAddr n = v ∧
    KeepsBytesOutside s t s.operandAddr n

/-- The write of `v` at ADDR, the write-back and the completion leave that. -/
theorem State.rewritten_writeBack {s : State} (hc : s.KeyCacheValid) {n : Nat} {v : List Byte} (hv : v.length = n)
    (r : Nat) : Rewritten s n v r ((s.memWrite s.operandAddr v).writeBack.finish r) := by
  subst hv
  exact ⟨State.completedWith_finish _ r, s.keepsHostRegisters_writeBack _ r v, s.holdsSchedule_writeBack _ r v hc,
    s.memRead_memWrite_writeBack _ r v, s.keepsBytesOutside_writeBack _ r v⟩

/-- A state that holds the schedule holds KEY's bytes too. -/
theorem HoldsSchedule.keyBytes {s t : State} (h : HoldsSchedule s t) : t.keyBytes = s.keyBytes :=
  congrArg Words4.bytes h.key

/-- A state that holds the schedule has a valid cache, whatever LEN the host writes then (10_state.md R45). -/
theorem HoldsSchedule.keyCacheValid_withLen {s t : State} (h : HoldsSchedule s t) (d : Word32) :
    ({ t with len := d } : State).KeyCacheValid := fun _ =>
  h.rk.trans (congrArg expand h.keyBytes.symm)

/-- Byte `j` of a range whose bytes are known. -/
theorem State.byteAt_of_memRead {t : State} {a n j : Nat} {v : List Byte} (h : t.memRead a n = v) (hj : j < v.length) :
    t.byteAt (a + j) = v[j] := by
  obtain rfl := h
  exact (t.getElem_memRead ..).symm

/-- BUF reads the same for every LEN (10_state.md R39). -/
theorem State.memRead_withLen (s : State) (d : Word32) (a n : Nat) :
    ({ s with len := d } : State).memRead a n = s.memRead a n :=
  State.memRead_congr (s := s) (t := { s with len := d }) rfl rfl a n

section Commands

variable {s : State} {sch : Scheme}

/-- CBCENC when the padded message fits in BUF (43_cbc.md R263, R264). -/
theorem State.cbcEncrypt_rewritten (hc : s.KeyCacheValid)
    (h : s.operandAddr + s.operandLen + padLen s.operandLen 16 ≤ s.bufSize) :
    Rewritten s (s.operandLen + padLen s.operandLen 16)
      (cbcEnc (expand s.keyBytes) s.ivBytes (s.paddedMessage sch)) (s.operandLen + padLen s.operandLen 16)
      (s.cbcEncrypt sch) := by
  rcases s.cbcEncrypt_cases sch with ⟨-, e⟩ | ⟨hlt, -⟩
  · have blocks : (s.paddedMessage sch).length % 16 = 0 := by
      rw [State.paddedMessage_length, add_padLen_mod _ 16 (by decide)]
    rw [e, State.schedule_eq hc]
    exact State.rewritten_writeBack hc ((cbcEnc_length _ _ _ blocks).trans (s.paddedMessage_length sch)) _
  · exact absurd h hlt.not_ge

/-- CBCENC when the padded message would pass the end of BUF (43_cbc.md R263, R264). -/
theorem State.cbcEncrypt_of_not_fits (h : s.bufSize < s.operandAddr + s.operandLen + padLen s.operandLen 16) :
    s.cbcEncrypt sch = s.errorState .range none := by
  rcases s.cbcEncrypt_cases sch with ⟨hle, -⟩ | ⟨-, e⟩
  · exact absurd h hle.not_gt
  · exact e

/-- CBCENC's ERRCODE and RLEN, by the padded length (43_cbc.md R268). -/
theorem State.cbcEncrypt_result (s : State) (sch : Scheme) :
    (s.operandAddr + 16 * (s.operandLen / 16 + 1) ≤ s.bufSize ∧ (s.cbcEncrypt sch).errcode = .noError ∧
      (s.cbcEncrypt sch).rlen.toNat = 16 * (s.operandLen / 16 + 1)) ∨
    (s.bufSize < s.operandAddr + 16 * (s.operandLen / 16 + 1) ∧ (s.cbcEncrypt sch).errcode = .range) := by
  have outcomes := s.cbcEncrypt_cases sch
  rw [Nat.add_assoc, add_padLen_sixteen] at outcomes
  rcases outcomes with ⟨hle, e⟩ | ⟨hlt, e⟩ <;> rw [e]
  · exact .inl ⟨hle, rfl, (State.completedWith_finish _ _).rlen_toNat (s := s) (by omega)⟩
  · exact .inr ⟨hlt, rfl⟩

/-- CBCDEC's errors in their order, and its success with the decrypted bytes `Q` (43_cbc.md R265, R266). -/
theorem exec_cbcdec_effect {i : Instr} {a L : Nat} {Q : List Byte} (hc : s.KeyCacheValid)
    (hi : exec i s = .next (s.cbcDecrypt sch)) (ha : s.operandAddr = a) (hL : s.operandLen = L)
    (hQ : cbcDec (expand s.keyBytes) s.ivBytes (s.memRead a L) = Q) :
    let D := fun j => Q.getD j 0#8
    (s.bufSize < a + L → FailsWith i s .range) ∧
    (a + L ≤ s.bufSize → L = 0 ∨ L % 16 ≠ 0 → FailsWith i s .wctl) ∧
    (a + L ≤ s.bufSize → L ≠ 0 → L % 16 = 0 → ¬ PadPasses sch D L → FailsWith i s .wpad) ∧
    (a + L ≤ s.bufSize → L ≠ 0 → L % 16 = 0 → PadPasses sch D L →
      ∃ t, exec i s = .next t ∧ Rewritten s L Q (L - (D (L - 1)).toNat) t) := by
  intro D
  subst ha hL
  have decrypted : s.decryptedMessage = Q := by rw [State.decryptedMessage, State.schedule_eq hc, hQ]
  have check (hmod : s.operandLen % 16 = 0) {m : Nat} : unpad sch s.decryptedMessage = some m ↔
      PadPasses sch D s.operandLen ∧ s.operandLen - (D (s.operandLen - 1)).toNat = m := by
    rw [decrypted, ← s.decryptedMessage_length hmod, decrypted]; exact unpad_eq_some_iff_getD
  have raised {c : ErrCode} (e : s.cbcDecrypt sch = s.raise c) : FailsWith i s c := ⟨none, hi.trans (congrArg _ e)⟩
  rcases s.cbcDecrypt_cases sch with ⟨hfit, e⟩ | ⟨hfit, hlen, e⟩ | ⟨hfit, hmod, h0, hu, e⟩ | ⟨m, hfit, hmod, h0, hu, e⟩
  · have beyond {P : Prop} (h : s.operandAddr + s.operandLen ≤ s.bufSize) : P := absurd h hfit.not_ge
    exact ⟨fun _ => raised e, beyond, beyond, beyond⟩
  · have wrong {P : Prop} (h0 : s.operandLen ≠ 0) (hmod : s.operandLen % 16 = 0) : P :=
      hlen.elim (absurd hmod ·) (absurd · h0)
    exact ⟨fun h => absurd hfit h.not_ge, fun _ _ => raised e, fun _ => wrong, fun _ => wrong⟩
  · refine ⟨fun h => absurd hfit h.not_ge, fun _ h => h.elim (absurd · h0) (absurd hmod ·), fun _ _ _ _ => raised e,
      fun _ _ _ passes => ?_⟩
    exact nomatch hu.symm.trans ((check hmod).mpr ⟨passes, rfl⟩)
  · obtain ⟨passes, rfl⟩ := (check hmod).mp hu
    refine ⟨fun h => absurd hfit h.not_ge, fun _ h => h.elim (absurd · h0) (absurd hmod ·),
      fun _ _ _ fails => absurd passes fails, fun _ _ _ _ => ⟨_, hi.trans (congrArg _ e), ?_⟩⟩
    rw [decrypted]
    exact State.rewritten_writeBack hc (decrypted ▸ s.decryptedMessage_length hmod) _

/-- CBCENC, then CBCDEC of the same scheme with LEN set to CBCENC's RLEN (43_cbc.md R267). -/
theorem cbcenc_cbcdec_roundTrip {enc dec : Instr} (hc : s.KeyCacheValid)
    (he : exec enc s = .next (s.cbcEncrypt sch)) (hd : ∀ t : State, exec dec t = .next (t.cbcDecrypt sch))
    (hfit : s.operandAddr + s.operandLen + padLen s.operandLen 16 ≤ s.bufSize) :
    ∃ t u, exec enc s = .next t ∧ exec dec { t with len := t.rlen } = .next u ∧
      u.errcode = .noError ∧ u.rlen = s.len ∧
      ∀ j, j < s.operandLen → u.byteAt (s.operandAddr + j) = s.byteAt (s.operandAddr + j) := by
  obtain ⟨completed, registers, schedule, ciphertext, -⟩ := State.cbcEncrypt_rewritten (sch := sch) hc hfit
  have hmod := add_padLen_mod s.operandLen 16 (by decide)
  have length := s.paddedMessage_length sch
  obtain ⟨passes, count⟩ := unpad_eq_some_iff_getD.mp (s.unpad_paddedMessage sch)
  rw [length] at passes count
  have hpos := padLen_pos s.operandLen 16 (by decide)
  generalize padLen s.operandLen 16 = n at ciphertext completed passes count length hmod hpos hfit
  generalize s.cbcEncrypt sch = t at completed registers schedule ciphertext he
  have addr : t.operandAddr = s.operandAddr := congrArg BitVec.toNat registers.addr
  have size : t.bufSize = s.bufSize := congrArg BitVec.toNat registers.bufsz
  have iv : t.ivBytes = s.ivBytes := congrArg Words4.bytes registers.iv
  have rlen : t.rlen.toNat = s.operandLen + n := completed.rlen_toNat (s := s) (by omega)
  have message : cbcDec (expand t.keyBytes) t.ivBytes
      (({ t with len := t.rlen } : State).memRead s.operandAddr (s.operandLen + n)) = s.paddedMessage sch := by
    rw [State.memRead_withLen, ciphertext, schedule.keyBytes, iv, cbcDec_cbcEnc _ s.ivBytes_length (length ▸ hmod)]
  obtain ⟨-, -, -, succeeds⟩ := exec_cbcdec_effect (schedule.keyCacheValid_withLen t.rlen)
    (hd { t with len := t.rlen }) addr rlen message
  obtain ⟨u, e, finished, -, -, plaintext, -⟩ :=
    succeeds (by rw [← Nat.add_assoc]; exact hfit.trans size.ge) (by omega) hmod passes
  refine ⟨t, u, he, e, finished.errcode, ?_, fun j hj => ?_⟩
  · rw [finished.rlen, count, State.operandLen, BitVec.ofNat_toNat, BitVec.setWidth_eq]
  · rw [← s.getElem_paddedMessage sch hj, ← addr]
    exact State.byteAt_of_memRead plaintext (by omega)

end Commands

/-! ## Tier 2 -/

/-- Settles O29: the chaining from the IV on. -/
theorem cbcEncryptionChains : Obligations.CbcEncryptionChains := by
  intro rk iv P N _ hP
  have count : P.length / 16 = N := by omega
  rw [cbcEnc, count]
  exact ⟨cbcEncFrom_length .., fun i hi => blockOf_cbcEncFrom rk hi iv P⟩

/-- Settles O30: the chaining from the IV on. -/
theorem cbcDecryptionChains : Obligations.CbcDecryptionChains := by
  intro rk iv C N hiv hC
  have count : C.length / 16 = N := by omega
  rw [cbcDec, count]
  exact ⟨cbcDecFrom_length _ _ _ _ hiv hC.ge, fun i hi => blockOf_cbcDecFrom rk hi hiv hC.ge⟩

/-- Settles O31: the decryption and the XOR of a block undo its encryption, and both directions chain the same ciphertext. -/
theorem cbcDecryptionInvertsEncryption : Obligations.CbcDecryptionInvertsEncryption := fun rk _ _ hiv hP =>
  cbcDec_cbcEnc rk hiv hP

/-- Settles O32: the two outcomes of CBCENC, with the PKCS7 padding. -/
theorem cbcencPkcs7Effect : Obligations.CbcencPkcs7Effect :=
  ⟨by decide, fun _ hc => ⟨fun h => ⟨_, rfl, State.cbcEncrypt_rewritten (sch := .pkcs7) hc h⟩,
    fun h => ⟨none, congrArg _ (State.cbcEncrypt_of_not_fits h)⟩⟩⟩

/-- Settles O33: the two outcomes of CBCENC, with the X9.23 padding. -/
theorem cbcencX923Effect : Obligations.CbcencX923Effect :=
  ⟨by decide, fun _ hc => ⟨fun h => ⟨_, rfl, State.cbcEncrypt_rewritten (sch := .x923) hc h⟩,
    fun h => ⟨none, congrArg _ (State.cbcEncrypt_of_not_fits h)⟩⟩⟩

/-- Settles O34: the outcomes of CBCDEC, with the PKCS7 check. -/
theorem cbcdecPkcs7Effect : Obligations.CbcdecPkcs7Effect := by
  rw [Obligations.CbcdecPkcs7Effect, ← padPasses_pkcs7]
  exact ⟨by decide, fun _ hc => exec_cbcdec_effect (i := .cbcdecPkcs7) (sch := .pkcs7) hc rfl rfl rfl rfl⟩

/-- Settles O35: the outcomes of CBCDEC, with the X9.23 check. -/
theorem cbcdecX923Effect : Obligations.CbcdecX923Effect := by
  rw [Obligations.CbcdecX923Effect, ← padPasses_x923]
  exact ⟨by decide, fun _ hc => exec_cbcdec_effect (i := .cbcdecX923) (sch := .x923) hc rfl rfl rfl rfl⟩

/-- Settles O36: the round trip of either scheme. -/
theorem cbcCommandRoundTrip : Obligations.CbcCommandRoundTrip := by
  intro s enc dec hc h a L hfit
  rcases h with ⟨rfl, rfl⟩ | ⟨rfl, rfl⟩
  · exact cbcenc_cbcdec_roundTrip (sch := .pkcs7) hc rfl (fun _ => rfl) hfit
  · exact cbcenc_cbcdec_roundTrip (sch := .x923) hc rfl (fun _ => rfl) hfit

/-- Settles O37: the bound on the padded length, solved for the length of the message. -/
theorem cbcencLongestMessage : Obligations.CbcencLongestMessage := by
  intro s enc h a L room
  obtain ⟨sch, e⟩ : ∃ sch, exec enc s = .next (s.cbcEncrypt sch) := by
    rcases h with rfl | rfl
    · exact ⟨.pkcs7, rfl⟩
    · exact ⟨.x923, rfl⟩
  refine ⟨_, e, ?_⟩
  have bound : a + 16 * (L / 16 + 1) ≤ s.bufsz.toNat ↔ 16 ≤ room ∧ L ≤ 16 * (room / 16) - 1 := by omega
  rcases s.cbcEncrypt_result sch with ⟨hle, code, rlen⟩ | ⟨hlt, code⟩
  · obtain ⟨hroom, hL⟩ := bound.mp hle
    rw [code]
    exact ⟨iff_of_true rfl hle, fun h => absurd rfl h, fun h => absurd hroom h.not_ge, fun _ => iff_of_true rfl hL,
      fun _ hmax => rlen.trans (show 16 * (L / 16 + 1) = _ by omega)⟩
  · have beyond : ¬ a + 16 * (L / 16 + 1) ≤ s.bufsz.toNat := hlt.not_ge
    rw [code]
    refine ⟨iff_of_false (by decide) beyond, fun _ => rfl, fun _ => rfl, fun hroom => ?_, fun hroom hmax => ?_⟩
    · exact iff_of_false (by decide) fun hL => beyond (bound.mpr ⟨hroom, hL⟩)
    · exact absurd (bound.mpr ⟨hroom, hmax.le⟩) beyond

end Sys2Proof.Machine

/-! # Proofs of the family 60_exceptions.md

First what a step does to the flags DONE, OVR and DONEIE, said once, and that the bus does not look at the key state.
Then the statements, tier by tier. -/

namespace Sys2Proof.Machine

/-! ## What a step does to the flags -/

/-- The flags that IRQ and the overrun record are made of (60_exceptions.md R304, R305). -/
structure Flags where
  done : Bool
  ovr : Bool
  doneie : Bool

/-- The interrupt output of the flags (10_state.md R43). -/
def Flags.irq (f : Flags) : Bool := f.done && f.doneie

def State.flags (s : State) : Flags := ⟨s.done, s.ovr, s.doneie⟩

@[simp] theorem State.flags_done (s : State) : s.flags.done = s.done := rfl
@[simp] theorem State.flags_ovr (s : State) : s.flags.ovr = s.ovr := rfl
@[simp] theorem State.flags_doneie (s : State) : s.flags.doneie = s.doneie := rfl
/-- The output of the flags is the model's IRQ. -/
@[simp] theorem State.flags_irq (s : State) : s.flags.irq = s.irq := rfl

/-- How a served write of `d` at offset `o` takes the flags from `f` to `f'`, guards included: `writeTarget_flags` ties it
to the model. -/
inductive WriteFlags (busy : Bool) (size : Nat) (o : Offset) (d : Word32) (f f' : Flags) : Prop
  | kept (e : f' = f)
  | discarded (hb : busy = true) (hp : ProtectedOffset size o.toNat) (e : f' = { f with ovr := true })
  | accepted (hb : busy = false) (ho : o.toNat = 0x0004) (e : f' = { f with done := false })
  | status (ho : o.toNat = 0x0008) (e : f' = { f with done := f.done && !d.getLsbD 1, ovr := f.ovr && !d.getLsbD 2 })
  | inten (ho : o.toNat = 0x000C) (e : f' = { f with doneie := d.getLsbD 0 })

theorem State.writeTarget_flags (s : State) (size : Nat) (o : Offset) (d : Word32) :
    WriteFlags s.busy size o d s.flags (s.writeTarget (target size o) d).flags := by
  rcases s.writeTarget_cases size o d with ⟨hb, hp, e⟩ | e | ⟨hb, ho, e⟩ | ⟨ho, e⟩ | ⟨ho, e⟩ | ⟨-, i, -, e⟩ |
    ⟨-, i, -, e⟩ | ⟨-, -, e⟩ | ⟨-, -, e⟩ | ⟨-, -, -, e⟩ <;> rw [e]
  · exact .discarded hb hp rfl
  · exact .kept rfl
  · exact .accepted hb ho rfl
  · exact .status ho rfl
  · exact .inten ho rfl
  all_goals exact .kept rfl

/-- What one step from `s` to `t` does to the flags (60_exceptions.md R304, R305): `step_flags` ties it to the model. -/
inductive StepFlags (s t : State) : Prop
  | kept (e : t.flags = s.flags)
  | completed (hb : s.busy = true) (ht : t.busy = false) (e : t.flags = { s.flags with done := true })
  | written {rest : List Event} {o : Offset} {d : Word32} (ha : s.agenda = .access (.write 32 o d) :: rest)
      (h4 : o.toNat % 4 = 0) (hw : WriteFlags s.busy s.bufSize o d s.flags t.flags)
  | reset (hr : s.NextResets) (e : t.flags = ⟨false, false, false⟩)

theorem CommandOutcome.flags {i : Instr} {s t : State} (h : CommandOutcome i s t) :
    t.flags = { s.flags with done := true } := by
  rw [State.flags, h.done, h.keepsHostRegisters.ovr, h.keepsHostRegisters.doneie]; rfl

theorem step_flags {s t : State} (h : step s = .next t) : StepFlags s t := by
  rcases step_inversion h with ⟨rest, -, rfl⟩ | ⟨rest, hb, i, -, ho⟩ | ⟨rest, why, hb, -, rfl⟩ | ⟨rest, r, rfl⟩ |
    ⟨rest, o, d, ha, h4, rfl⟩ | ⟨rest, ha, rfl⟩
  · exact .kept rfl
  · exact .completed hb ho.busy ho.flags
  · exact .completed hb rfl rfl
  · exact .kept rfl
  · exact .written ha h4 (State.writeTarget_flags { s with agenda := rest } s.bufSize o d)
  · exact .reset ⟨rest, ha⟩ rfl

/-! ## What raises and lowers OVR and IRQ -/

section Edges

variable {s t : State}

/-- Only the discarding of a write raises OVR (60_exceptions.md R304). -/
theorem step_raises_ovr (h : step s = .next t) (hs : s.ovr = false) (ht : t.ovr = true) :
    s.busy = true ∧ ∃ (off : Nat) (d : Word32) (rest : List Event),
      s.NextWrites off d rest ∧ off % 4 = 0 ∧ ProtectedOffset s.bufSize off := by
  have same {p : Prop} (e : t.ovr = s.ovr) : p := absurd (e.symm.trans ht) (by simp [hs])
  cases step_flags h with
  | kept e | completed _ _ e => exact same (congrArg Flags.ovr e)
  | reset _ e => exact nomatch ht.symm.trans (congrArg Flags.ovr e)
  | written ha h4 hw =>
    cases hw with
    | discarded hb hp => exact ⟨hb, _, _, _, ⟨_, rfl, ha⟩, h4, hp⟩
    | kept e | accepted _ _ e | inten _ e => exact same (congrArg Flags.ovr e)
    | status _ e => exact same ((congrArg Flags.ovr e).trans (by simp [hs]))

/-- Only a write of STATUS with bit 2 set, or a reset, lowers OVR (R304). -/
theorem step_lowers_ovr (h : step s = .next t) (hs : s.ovr = true) (ht : t.ovr = false) :
    s.NextResets ∨ ∃ (d : Word32) (rest : List Event), s.NextWrites 0x0008 d rest ∧ d.getLsbD 2 = true := by
  have same {p : Prop} (e : t.ovr = s.ovr) : p := absurd (e.symm.trans ht) (by simp [hs])
  cases step_flags h with
  | kept e | completed _ _ e => exact same (congrArg Flags.ovr e)
  | reset hr => exact .inl hr
  | written ha _ hw =>
    cases hw with
    | discarded _ _ e => exact nomatch ht.symm.trans (congrArg Flags.ovr e)
    | kept e | accepted _ _ e | inten _ e => exact same (congrArg Flags.ovr e)
    | status ho e => exact .inr ⟨_, _, ⟨_, ho, ha⟩, by simpa [hs] using (congrArg Flags.ovr e).symm.trans ht⟩

/-- Only a completion, or a write of INTEN with bit 0 set, raises IRQ (60_exceptions.md R305). -/
theorem step_raises_irq (h : step s = .next t) (hs : s.irq = false) (ht : t.irq = true) :
    (s.busy = true ∧ t.busy = false) ∨
    ∃ (d : Word32) (rest : List Event), s.NextWrites 0x000C d rest ∧ d.getLsbD 0 = true := by
  have same {p : Prop} (e : t.irq = s.irq) : p := absurd (e.symm.trans ht) (by simp [hs])
  cases step_flags h with
  | kept e => exact same (congrArg Flags.irq e)
  | completed hb hb' => exact .inl ⟨hb, hb'⟩
  | reset _ e => exact nomatch ht.symm.trans (congrArg Flags.irq e)
  | @written _ _ d ha _ hw =>
    cases hw with
    | kept e | discarded _ _ e => exact same (congrArg Flags.irq e)
    | accepted _ _ e => exact nomatch ht.symm.trans (congrArg Flags.irq e)
    | status _ e =>
      have masked : t.irq = (s.irq && !d.getLsbD 1) := (congrArg Flags.irq e).trans (Bool.and_right_comm ..)
      exact same (by simp [masked, hs])
    | inten ho e =>
      have enabled : (s.done && d.getLsbD 0) = true := (congrArg Flags.irq e).symm.trans ht
      exact .inr ⟨_, _, ⟨_, ho, ha⟩, (Bool.and_eq_true_iff.mp enabled).2⟩

/-- Only an acknowledgement, the acceptance of a command, a write of INTEN with bit 0 clear, or a reset lowers IRQ
(R305). -/
theorem step_lowers_irq (h : step s = .next t) (hs : s.irq = true) (ht : t.irq = false) :
    s.NextResets ∨ ∃ (d : Word32) (rest : List Event),
      (s.NextWrites 0x0008 d rest ∧ d.getLsbD 1 = true) ∨ (s.NextWrites 0x0004 d rest ∧ s.busy = false) ∨
      (s.NextWrites 0x000C d rest ∧ d.getLsbD 0 = false) := by
  have same {p : Prop} (e : t.irq = s.irq) : p := absurd (e.symm.trans ht) (by simp [hs])
  obtain ⟨hdone, hdoneie⟩ := Bool.and_eq_true_iff.mp hs
  cases step_flags h with
  | kept e => exact same (congrArg Flags.irq e)
  | completed _ _ e => exact same ((congrArg Flags.irq e).trans (hdoneie.trans hs.symm))
  | reset hr => exact .inl hr
  | @written rest _ d ha _ hw =>
    refine .inr ⟨d, rest, ?_⟩
    cases hw with
    | kept e | discarded _ _ e => exact same (congrArg Flags.irq e)
    | accepted hb ho => exact .inr (.inl ⟨⟨_, ho, ha⟩, hb⟩)
    | status ho e =>
      have masked : ((s.done && !d.getLsbD 1) && s.doneie) = false := (congrArg Flags.irq e).symm.trans ht
      exact .inl ⟨⟨_, ho, ha⟩, by simpa [hdone, hdoneie] using masked⟩
    | inten ho e =>
      have disabled : (s.done && d.getLsbD 0) = false := (congrArg Flags.irq e).symm.trans ht
      exact .inr (.inr ⟨⟨_, ho, ha⟩, by simpa [hdone] using disabled⟩)

end Edges

/-! ## The offsets that are frozen while BUSY -/

/-- An aligned offset whose writes R32 protects selects a target that is frozen while BUSY. -/
theorem frozen_of_protectedOffset {size : Nat} {o : Offset} (hs : size % 4 = 0) (h4 : o.toNat % 4 = 0)
    (hp : ProtectedOffset size o.toNat) : (target size o).frozenWhileBusy = true := by
  rcases hp with h | ⟨hlo, hhi⟩ | ⟨hlo, hhi⟩
  · rw [target_register (by omega), h]; rfl
  · rw [target_register (by omega)]
    obtain ⟨k, hk⟩ : ∃ k, o.toNat = 4 * k := ⟨o.toNat / 4, by omega⟩
    rw [hk] at hlo hhi ⊢
    have lo : 4 ≤ k := by omega
    have hi : k ≤ 13 := by omega
    interval_cases k <;> rfl
  · rw [target_window hlo (by omega)]; rfl

/-! ## The bus and the key state -/

/-- No answer of the bus depends on KEY, RK or PEND (60_exceptions.md R310). -/
theorem State.answer_withKeyState (s : State) (key : Words4) (rk : Vector Word64 32) (pend : Option Pending)
    (a : BusAccess) : ({ s with key := key, rk := rk, pend := pend } : State).answer a = s.answer a := by
  have read (t : Target) :
      ({ s with key := key, rk := rk, pend := pend } : State).readTarget t = s.readTarget t := by
    cases t with
    | bufWord k =>
      simp only [State.readTarget,
        State.memRead_congr (s := s) (t := { s with key := key, rk := rk, pend := pend }) rfl rfl]
    | _ => rfl
  cases a with
  | read w o => simp only [State.answer, read]; rfl
  | write w o d => rfl

/-! ## Tier 2 -/

/-- Settles O55: a protected offset selects a frozen target; of the effects on the flags only a discarded write raises
OVR, and only a write of STATUS or a reset lowers it. -/
theorem overrunRecordsDiscardedWrites : Obligations.OverrunRecordsDiscardedWrites := by
  refine ⟨fun s off d rest hsize hb h4 hp h => ?_, fun s t h hs ht => ?_, fun s t h hs ht => ?_⟩
  · obtain ⟨o, rfl, ha⟩ := h
    refine step_write_discarded ⟨o, rfl, ha⟩ h4 (fun o' ho' => by rw [BitVec.eq_of_toNat_eq ho']) hb ?_
    exact frozen_of_protectedOffset (by have := hsize.1; simp only [State.bufSize]; omega) h4 hp
  · exact step_raises_ovr h hs ht
  · exact step_lowers_ovr h hs ht

/-- Settles O56: of the effects on the flags only these raise or lower DONE and DONEIE together. -/
theorem interruptIsALevel : Obligations.InterruptIsALevel :=
  ⟨fun _ => Bool.and_eq_true_iff, fun _ _ => step_raises_irq, fun _ _ => step_lowers_irq⟩

/-! ## Tier 1 -/

/-- Settles O57: the step at an access gives the answer, and the answer is blind to the three fields. -/
theorem busAnswersRevealNoKey : Obligations.BusAnswersRevealNoKey := by
  intro s key rk pend a rest ha
  refine ⟨_, _, step_access ha, step_access (s := { s with key := key, rk := rk, pend := pend }) ha, ?_⟩
  exact congrArg some (State.answer_withKeyState { s with agenda := rest } key rk pend a).symm

/-- Settles O11: a step leaves the engine idle or uses up an event, and answers a next state in either case. -/
theorem everyStepGoesOn : Obligations.EveryStepGoesOn := fun s =>
  (step_idle_or_shortens s).imp fun _ ⟨ht, _⟩ => ht

end Sys2Proof.Machine

/-! # Proofs of the family 70_reset_and_hazards.md

First what changes a byte of BUF and the number of its draw, and what a reset leaves, each said once. Then the statements,
tier by tier. -/

namespace Sys2Proof.Machine

/-! ## What changes a byte of BUF -/

section Bytes

variable {s t : State} {b : Nat}

/-- A byte that changes lies in the range outside which bytes are kept. -/
theorem KeepsBytesOutside.changed_inside {a n : Nat} (h : KeepsBytesOutside s t a n) (hne : t.byteAt b ≠ s.byteAt b) :
    a ≤ b ∧ b < a + n := by
  by_contra hb
  exact hne (h b (by omega))

/-- A command changes a byte only if it succeeds, and only from ADDR on inside BUF (40_command_cycle.md R145). -/
theorem CommandOutcome.byteAt_ne {i : Instr} (h : CommandOutcome i s t) (hne : t.byteAt b ≠ s.byteAt b) :
    t.errcode = .noError ∧ s.operandAddr ≤ b ∧ b < s.bufSize := by
  cases h with
  | error | plain | expanded | cleared => exact absurd rfl hne
  | written a r v ha hv =>
    have keeps : KeepsBytesOutside s ((s.memWrite a v).finish r) a v.length := s.byteAt_memWrite_outside a v
    obtain ⟨hlo, hhi⟩ := keeps.changed_inside hne
    exact ⟨rfl, ha.trans hlo, hhi.trans_le hv⟩
  | ciphered a r v _ ha hv =>
    obtain ⟨hlo, hhi⟩ := (s.keepsBytesOutside_writeBack a r v).changed_inside hne
    exact ⟨rfl, ha.trans hlo, hhi.trans_le hv⟩

/-- A served write changes a byte only while idle, and only in the window's word at its offset (20_memory.md R83). -/
theorem State.writeTarget_byteAt_ne {size : Nat} {o : Offset} {d : Word32}
    (hne : (s.writeTarget (target size o) d).byteAt b ≠ s.byteAt b) :
    s.busy = false ∧ 0x1000 ≤ o.toNat ∧ o.toNat - 0x1000 ≤ b ∧ b < o.toNat - 0x1000 + 4 := by
  rcases s.writeTarget_cases size o d with ⟨-, -, e⟩ | e | ⟨-, -, e⟩ | ⟨-, e⟩ | ⟨-, e⟩ | ⟨-, i, -, e⟩ |
    ⟨-, i, -, e⟩ | ⟨-, -, e⟩ | ⟨-, -, e⟩ | ⟨hb, hwin, -, e⟩ <;> rw [e] at hne
  iterate 9 exact absurd rfl hne
  exact ⟨hb, hwin, (s.keepsBytesOutside_memWrite_bytesLe32 _ d).changed_inside hne⟩

end Bytes

/-! ## The number of BUF's draw, and the reset step -/

section Reset

variable {s t : State}

theorem WriteEffect.epoch {size : Nat} {o : Offset} {d : Word32} (h : WriteEffect s size o d t) : t.epoch = s.epoch := by
  cases h <;> rfl

/-- Only a reset counts up the draw (log 1). -/
theorem step_epoch (h : step s = .next t) (hr : ¬s.NextResets) : t.epoch = s.epoch := by
  cases step_effect h with
  | idle | illegal | answered => rfl
  | command _ _ _ ho => exact ho.keepsHostRegisters.epoch
  | written _ _ hw => exact hw.epoch
  | reset rest ha => exact absurd ⟨rest, ha⟩ hr

/-- After a reset no byte of BUF is written, so each reads as the new draw (70_reset_and_hazards.md R341). -/
theorem State.resetStep_byteAt (s : State) (a : Nat) : s.resetStep.byteAt a = Config.bufDraw (s.epoch + 1) a := rfl

/-- STATUS reads 0 after a reset: every field of it does (10_state.md R34). -/
theorem State.resetStep_statusWord (s : State) : s.resetStep.statusWord = 0#32 :=
  BitVec.eq_of_toNat_eq (State.statusWord_toNat _)

theorem Words4.zero_bytes : Words4.zero.bytes = List.replicate 16 0#8 := by decide

end Reset

/-! ## Tier 2 -/

/-- Settles O42, by what a step can do: an engine's turn changes a byte only by a command that succeeds, an access only by
a served write of its word while idle. -/
theorem bytesChangeOnlyWhenWritten : Obligations.BytesChangeOnlyWhenWritten := by
  intro s t b h hne
  rcases step_inversion h with ⟨rest, -, rfl⟩ | ⟨rest, hb, i, hd, ho⟩ | ⟨rest, why, -, -, rfl⟩ | ⟨rest, r, rfl⟩ |
    ⟨rest, o, d, ha, h4, rfl⟩ | ⟨rest, ha, rfl⟩
  · exact absurd rfl hne
  · obtain ⟨he, hlo, hhi⟩ := ho.byteAt_ne hne
    exact .inr (.inr ⟨hb, ho.busy, he, i, hd, hlo, hhi⟩)
  · exact absurd rfl hne
  · exact absurd rfl hne
  · obtain ⟨hb, hwin, hlo, hhi⟩ := State.writeTarget_byteAt_ne (s := { s with agenda := rest }) hne
    exact .inr (.inl ⟨hb, (o.toNat - 0x1000) / 4, d, rest, ⟨o, by omega, ha⟩, by omega, by omega⟩)
  · exact .inl ⟨rest, ha⟩

/-- Settles O60: the reset step empties BUF and takes the next draw, and no other effect of a step touches its number. -/
theorem resetDrawsTheBuffer : Obligations.ResetDrawsTheBuffer := by
  refine ⟨fun s t hr h => ?_, fun _ _ => step_epoch⟩
  obtain ⟨rest, e⟩ := step_of_nextResets hr
  cases h.symm.trans e
  exact ⟨rfl, State.resetStep_byteAt _⟩

/-! ## Tier 1 -/

/-- Settles O59: every field is the one of `State.reset`, so the engine is idle at its turn. -/
theorem resetStepEffect : Obligations.ResetStepEffect := by
  intro s hr
  obtain ⟨rest, e⟩ := step_of_nextResets hr
  exact ⟨_, e, rfl, rfl, rfl, rfl, rfl, rfl, State.resetStep_statusWord _, rfl, Words4.zero_bytes, Words4.zero_bytes,
    rfl, rfl, rfl, rfl, rfl, getElem_zeroSchedule, rfl, rfl, State.engineTurn_idle rfl⟩

end Sys2Proof.Machine

/-! # Proofs of the remaining statements

First what a word of the opcode table's numbering decodes to. Then the statements, all of tier 1. -/

namespace Sys2Proof

/-- A table word has a command exactly when the word its bits give decodes to it. -/
theorem decodeTableWord_eq_some {nbits w : Nat} {i : Instr} :
    decodeTableWord nbits w = some i ↔ decode (tableWord nbits w) = .command i := by
  unfold decodeTableWord
  cases decode (tableWord nbits w) <;> simp

end Sys2Proof

namespace Sys2Proof.Machine

/-! ## Tier 1 -/

/-- Settles O7, from O6: the engine's turn comes first, with the accepted word in CMD. -/
theorem fetchedWordRunsNext : Obligations.FetchedWordRunsNext := by
  intro s nbits w i h
  obtain ⟨runs_command, -, -⟩ := stepRunsThePendingCommand (s.withFetchWord nbits w) (s.accept (tableWord nbits w))
    (.inr ⟨s.agenda, rfl, rfl⟩)
  exact runs_command i rfl (decodeTableWord_eq_some.mp h)

/-- Settles O21, by running the 32 rounds of the schedule and of the block on each of the two vectors. -/
theorem knownAnswerVectors : Obligations.KnownAnswerVectors := by
  refine ⟨?publishedVector, ?zeroKey⟩
  case publishedVector => decide +kernel
  case zeroKey => decide +kernel

/-- Settles O38: the default BUF_SIZE is legal, no byte of BUF is written, KSV and BUSY are 0, and RLEN is 0. -/
theorem invariantHoldsAtReset : Obligations.InvariantHoldsAtReset where
  bufSizeLegal := by decide
  bufCanonical := ⟨List.Pairwise.nil, fun _ h => nomatch h⟩
  keyCacheValid := fun h => nomatch h
  pendFrozen := State.pendFrozen_of_idle rfl rfl
  busyStatusClear := fun h => nomatch h
  resultInRange := ⟨Nat.zero_le _, fun h => absurd rfl h⟩

end Sys2Proof.Machine
